-- ==== Sys2Proof/Word.lean ====
section
/-! DEFINITION. The data types of CORE: bytes, the two different things the spec calls a word (00_scope.md R15), the
fixed-size byte arrays, and the five-word records of SHA-1. Sizes are those of R11. -/

namespace Sys2Proof

/-- A Byte, "8-bit unsigned value, the universal unit" (R13). -/
abbrev Byte := BitVec 8

/-- A SHA word: a 32-bit unsigned integer (R15). -/
abbrev Word := BitVec 32

/-- An AES word `(b0, b1, b2, b3)`: a 4-byte sequence, `b0` at the lowest byte index, never read as an integer (R15). -/
structure AesWord where
  b0 : Byte
  b1 : Byte
  b2 : Byte
  b3 : Byte
deriving DecidableEq, Repr, Inhabited

/-- An AES State, key or round key: 16 bytes, `state(row, col) = bytes[row + 4*col]` (R23, R51). -/
abbrev Block := Vector Byte 16

/-- The round-key schedule, 176 bytes (R21). -/
abbrev Schedule := Vector Byte 176

/-- The SHA-1 accumulation buffer, and any 64-byte SHA-1 block (R31). -/
abbrev Buffer := Vector Byte 64

/-- The message schedule `W[0..79]` (R36). -/
abbrev MsgSchedule := Vector Word 80

/-- The five SHA words `H[0..4]` (R30). -/
structure Hash where
  h0 : Word
  h1 : Word
  h2 : Word
  h3 : Word
  h4 : Word
deriving DecidableEq, Repr, Inhabited

/-- The working variables `A..E` of a compression (R37). -/
structure WorkVars where
  a : Word
  b : Word
  c : Word
  d : Word
  e : Word
deriving DecidableEq, Repr, Inhabited

end Sys2Proof
end

