-- ==== Sys2Proof/Machine/Access.lean ====
section
/-! DEFINITION. Access to the byte arrays: `MemRead`, `MemWrite` (00_scope.md R16, 20_memory.md R67), AES words cut from an
array (R52), and building an array from its elements. Every index a rule computes is in range (R65); a read outside an
array gives 0 and a write outside it is dropped, and neither happens. -/

namespace Sys2Proof.Machine

/-- The array whose element `i` is `f i`. -/
def tabulate {α : Type} (n : Nat) (f : Nat → α) : Vector α n :=
  ⟨⟨(List.range n).map f⟩, by simp⟩

/-- `A[i]` of a byte array (R16). -/
def byteAt {n : Nat} (v : Vector Byte n) (i : Nat) : Byte :=
  v.toArray.toList.getD i 0

/-- `MemRead(A, addr, len)` (R16). -/
def memRead {n : Nat} (v : Vector Byte n) (addr len : Nat) : List Byte :=
  (v.toArray.toList.drop addr).take len

/-- `MemWrite(A, addr, len(bytes), bytes)` (R16). -/
def memWrite {n : Nat} (v : Vector Byte n) (addr : Nat) : List Byte → Vector Byte n
  | [] => v
  | b :: bs => memWrite (v.setIfInBounds addr b) (addr + 1) bs

/-- The AES word at byte position `p`, `schedule.word_at(p)` (R52). -/
def wordAt {n : Nat} (v : Vector Byte n) (p : Nat) : AesWord :=
  { b0 := byteAt v p, b1 := byteAt v (p + 1), b2 := byteAt v (p + 2), b3 := byteAt v (p + 3) }

/-- The bytes of an AES word, `b0` first (R15). -/
def wordBytes (w : AesWord) : List Byte :=
  [w.b0, w.b1, w.b2, w.b3]

/-- `XOR` of two AES words, byte by byte (R14). -/
def wordXor (x y : AesWord) : AesWord :=
  { b0 := x.b0 ^^^ y.b0, b1 := x.b1 ^^^ y.b1, b2 := x.b2 ^^^ y.b2, b3 := x.b3 ^^^ y.b3 }

/-- The 16-byte block of a byte sequence of length 16, index for index (R51, R144). -/
def toBlock (bytes : List Byte) : Block :=
  tabulate 16 fun i => bytes.getD i 0

/-- The 64-byte block of a byte sequence of length 64, index for index. -/
def toBuffer (bytes : List Byte) : Buffer :=
  tabulate 64 fun i => bytes.getD i 0

/-- An array as a byte sequence. -/
def bytesOf {n : Nat} (v : Vector Byte n) : List Byte :=
  v.toArray.toList

end Sys2Proof.Machine
end

