-- ==== Sys2Proof/Machine/Galois.lean ====
section
/-! DEFINITION. GaloisField: table lookups and arithmetic in GF(2^8) (40_galois_field.md). -/

namespace Sys2Proof.Machine

/-- `Xtime(a)`, multiplication by 0x02 (R101). -/
def xtime (a : Byte) : Byte :=
  if a.getLsbD 7 then (a <<< 1) ^^^ 0x1B else a <<< 1

/-- `Sbox(b)` (R102). -/
def sbox (b : Byte) : Byte :=
  tableEntry sboxRows b.toNat

/-- `InvSbox(b)` (R103). No command reads it. -/
def invSbox (b : Byte) : Byte :=
  tableEntry invSboxRows b.toNat

/-- `Rcon(i)` (R107). -/
def rcon (i : Nat) : Byte :=
  rconTable.getD i 0

/-- The loop of R105 from round `i` on: `n` rounds are left, `t` is the shifted operand, `r` the sum so far. -/
def multiplyFrom (b : Byte) : Nat → Nat → Byte → Byte → Byte
  | 0, _, _, r => r
  | n + 1, i, t, r => multiplyFrom b n (i + 1) (xtime t) (if b.getLsbD i then r ^^^ t else r)

/-- `Multiply(a, b)` by shift and add (R105). -/
def multiply (a b : Byte) : Byte :=
  multiplyFrom b 8 0 a 0

/-- `Multiply(a, b)` the source's way, by the log and exp tables with its special cases in the order written (R105). -/
def multiplyByTables (a b : Byte) : Byte :=
  if a = 1 then b
  else if b = 1 then a
  else if a = 0 ∨ b = 0 then 0
  else tableEntry expRows (((tableEntry logRows a.toNat).toNat + (tableEntry logRows b.toNat).toNat) % 255)

/-- `r * a * a^2 * a^4 * ...`, `n` factors after `r`, in the field. -/
def gfSquares : Nat → Byte → Byte → Byte
  | 0, _, r => r
  | n + 1, a, r => gfSquares n (multiply a a) (multiply r a)

/-- The multiplicative inverse in the field, that of 0 taken as 0 (R102): `b^254 = b^2 * b^4 * ... * b^128`, since `b^255 = 1`
for `b ≠ 0`. -/
def gfInverse (b : Byte) : Byte :=
  gfSquares 7 (multiply b b) 1

/-- The S-box by its generating formula (R102). -/
def sboxByFormula (b : Byte) : Byte :=
  let i := gfInverse b
  i ^^^ i.rotateLeft 1 ^^^ i.rotateLeft 2 ^^^ i.rotateLeft 3 ^^^ i.rotateLeft 4 ^^^ 0x63

end Sys2Proof.Machine
end

