-- ==== Sys2Proof/Machine/Cipher.lean ====
section
/-! DEFINITION. The AES-128 encryption engine on blocks (42_aes_cipher.md R140 to R146, R151). -/

namespace Sys2Proof.Machine

/-- `SubBytes(s)` (R140). -/
def subBytes (s : Block) : Block :=
  tabulate 16 fun i => sbox (byteAt s i)

/-- `ShiftRows(s)`: `out[r + 4*c] = s[r + 4*((c + r) mod 4)]` (R141). -/
def shiftRows (s : Block) : Block :=
  tabulate 16 fun i => byteAt s (i % 4 + 4 * ((i / 4 + i % 4) % 4))

/-- One column of `MixColumns` (R142); an AES word holds the column, `b0` its row 0. -/
def mixColumn (x : AesWord) : AesWord :=
  { b0 := multiply 2 x.b0 ^^^ multiply 3 x.b1 ^^^ multiply 1 x.b2 ^^^ multiply 1 x.b3
    b1 := multiply 1 x.b0 ^^^ multiply 2 x.b1 ^^^ multiply 3 x.b2 ^^^ multiply 1 x.b3
    b2 := multiply 1 x.b0 ^^^ multiply 1 x.b1 ^^^ multiply 2 x.b2 ^^^ multiply 3 x.b3
    b3 := multiply 3 x.b0 ^^^ multiply 1 x.b1 ^^^ multiply 1 x.b2 ^^^ multiply 2 x.b3 }

/-- `MixColumns(s)`: every column by itself (R142). -/
def mixColumns (s : Block) : Block :=
  tabulate 16 fun i => (wordBytes (mixColumn (wordAt s (4 * (i / 4))))).getD (i % 4) 0

/-- `AddRoundKey(s, rk)` (R143). -/
def addRoundKey (s rk : Block) : Block :=
  tabulate 16 fun i => byteAt s i ^^^ byteAt rk i

/-- Round key `r`, `MemRead(RKS, 16*r, 16)` (R52). -/
def roundKey (rks : Schedule) (r : Nat) : Block :=
  toBlock (memRead rks (16 * r) 16)

/-- A round of 1..9: SubBytes, ShiftRows, MixColumns, AddRoundKey (R144). -/
def middleRound (rks : Schedule) (st : Block) (rnd : Nat) : Block :=
  addRoundKey (mixColumns (shiftRows (subBytes st))) (roundKey rks rnd)

/-- Round 10, without MixColumns (R144, R146). -/
def lastRound (rks : Schedule) (st : Block) : Block :=
  addRoundKey (shiftRows (subBytes st)) (roundKey rks 10)

/-- `EncryptBlock(RKS, block)` (R144). -/
def encryptBlock (rks : Schedule) (block : Block) : Block :=
  lastRound rks ([1, 2, 3, 4, 5, 6, 7, 8, 9].foldl (middleRound rks) (addRoundKey block (roundKey rks 0)))

/-- The ECB encryption of a payload of `16 * n` bytes: block `j` of the output from block `j` of the input (R151), as a map
over the blocks (R63). -/
def encryptEcb (rks : Schedule) (n : Nat) (data : List Byte) : List Byte :=
  (List.range n).flatMap fun j => bytesOf (encryptBlock rks (toBlock ((data.drop (16 * j)).take 16)))

end Sys2Proof.Machine
end

