-- ==== Sys2Proof/Machine/KeySchedule.lean ====
section
/-! DEFINITION. The AES-128 key schedule (41_aes_key_schedule.md R120 to R128). -/

namespace Sys2Proof.Machine

/-- `RotWord(w)` (R120). -/
def rotWord (w : AesWord) : AesWord :=
  { b0 := w.b1, b1 := w.b2, b2 := w.b3, b3 := w.b0 }

/-- `SubWord(w)` (R121). -/
def subWord (w : AesWord) : AesWord :=
  { b0 := sbox w.b0, b1 := sbox w.b1, b2 := sbox w.b2, b3 := sbox w.b3 }

/-- `RconWord(i)` (R122). -/
def rconWord (i : Nat) : AesWord :=
  { b0 := rcon i, b1 := 0, b2 := 0, b3 := 0 }

/-- `KeyCore(prev, i)`: rotate, substitute, add the constant (R123). -/
def keyCore (prev : AesWord) (i : Nat) : AesWord :=
  wordXor (subWord (rotWord prev)) (rconWord i)

/-- The registers `ExpandKey` works on: `RKS`, `KS_P`, `KS_RI` (R24, R124). -/
structure KeyRegs where
  rks : Schedule
  ksP : Nat
  ksRi : Nat
deriving DecidableEq, Repr

/-- One word step of `ExpandKey` (R124). -/
def keyStep (k : KeyRegs) : KeyRegs :=
  let prev := wordAt k.rks (k.ksP - 4)
  if k.ksP % 16 = 0 then
    { rks := memWrite k.rks k.ksP (wordBytes (wordXor (wordAt k.rks (k.ksP - 16)) (keyCore prev k.ksRi)))
      ksP := k.ksP + 4
      ksRi := k.ksRi + 1 }
  else
    { rks := memWrite k.rks k.ksP (wordBytes (wordXor (wordAt k.rks (k.ksP - 16)) prev))
      ksP := k.ksP + 4
      ksRi := k.ksRi }

/-- `n` word steps. -/
def keySteps : Nat → KeyRegs → KeyRegs
  | 0, k => k
  | n + 1, k => keySteps n (keyStep k)

/-- The registers before the first step: the key in bytes 0..15, `KS_P = 16`, `KS_RI = 1` (R124). The bytes from 16 on are
all written by the steps before any is read (R127, R65), so their start value, 0 here, is in no result. -/
def keyStart (key : Block) : KeyRegs :=
  { rks := memWrite (Vector.replicate 176 0) 0 (bytesOf key), ksP := 16, ksRi := 1 }

/-- `ExpandKey(key)`: the 40 steps `KS_P = 16, 20, ..., 172` (R124, R128). -/
def expandKey (key : Block) : Schedule :=
  (keySteps 40 (keyStart key)).rks

end Sys2Proof.Machine
end

