-- ==== Sys2Proof/Config.lean ====
section
/-! DEFINITION. What the spec leaves open: the bound of the one open parameter, the unspecified reset contents and the free
values. The opaque constants have no body: no proof can see a value of one. -/

namespace Sys2Proof

/-- The largest value `LEN` can have, and so the bound on `MAX_PAYLOAD` (R12, R70, R71). `MAX_PAYLOAD` itself is OPEN and no
constant of the model: what depends on it takes it as an argument, `maxPayload` (D4, log 6). -/
def Config.maxLen : Nat := 2 ^ 32 - 1

/-! Contents after reset: "unspecified: any value" (R45). DESIGN CHOICE, log 1: each reset has its own, numbered as the free
values below are. -/

/-- `RKS` after reset (R45). -/
opaque Config.resetRks : Nat → Schedule

/-- `H` after reset (R45). -/
opaque Config.resetH : Nat → Hash

/-- `BUF` after reset (R45). -/
opaque Config.resetBuf : Nat → Buffer

/-- `BUFLEN` after reset (R45). -/
opaque Config.resetBuflen : Nat → Fin 65

/-- `MSGLEN` after reset (R45). -/
opaque Config.resetMsglen : Nat → BitVec 64

/-! Free values of the transient registers: "A transient register has no architectural value between commands" (R38).
DESIGN CHOICE, log 2: a command that uses one leaves it at the free value numbered by the counter in State. -/

/-- Free value of `ST` (R23, R38). -/
opaque Config.freeSt : Nat → Block

/-- Free value of `KS_P` (R24, R38). -/
opaque Config.freeKsP : Nat → BitVec 8

/-- Free value of `KS_RI` (R24, R38). -/
opaque Config.freeKsRi : Nat → BitVec 4

/-- Free value of `RND` (R25, R38). -/
opaque Config.freeRnd : Nat → BitVec 4

/-- Free value of `W` (R36, R184). -/
opaque Config.freeW : Nat → MsgSchedule

/-- Free value of `A..E` (R37, R184). -/
opaque Config.freeVars : Nat → WorkVars

/-- Free value of `T` (R37, R184). -/
opaque Config.freeT : Nat → BitVec 7

end Sys2Proof
end

