-- ==== Sys2Proof/Syntax.lean ====
section
/-! DEFINITION. The command set as data: opcodes, payload formats and commands (30_encoding.md R70, R74, R75). -/

namespace Sys2Proof

/-- The seven opcodes (R75). -/
inductive Opcode where
  | aesExpand
  | aesEncBlock
  | aesEncEcb
  | sha1Create
  | sha1AddData
  | sha1Finalize
  | sha1Digest
deriving DecidableEq, Repr

/-- The four payload formats (R74). -/
inductive Format where
  /-- no payload: `LEN` is 0 -/
  | n
  /-- one 16-byte block: `LEN` is 16 -/
  | b16
  /-- a key of any length: the operation accepts only 16 -/
  | k
  /-- data bytes, any length -/
  | v
deriving DecidableEq, Repr

/-- A command: an opcode and its payload (R70, R75). `LEN` is the payload's length. -/
inductive Instr where
  /-- `AES_EXPAND` (R130): the payload is the key -/
  | aesExpand (key : List Byte)
  /-- `AES_ENC_BLOCK` (R150): the payload is one plaintext block -/
  | aesEncBlock (block : List Byte)
  /-- `AES_ENC_ECB` (R151): the payload is the plaintext -/
  | aesEncEcb (data : List Byte)
  /-- `SHA1_CREATE` (R200) -/
  | sha1Create
  /-- `SHA1_ADD_DATA` (R201): the payload is message bytes -/
  | sha1AddData (data : List Byte)
  /-- `SHA1_FINALIZE` (R202) -/
  | sha1Finalize
  /-- `SHA1_DIGEST` (R204) -/
  | sha1Digest
deriving DecidableEq, Repr

/-- The command's payload; empty for the `N`-format commands (R74). -/
def Instr.payload : Instr → List Byte
  | .aesExpand key => key
  | .aesEncBlock block => block
  | .aesEncEcb data => data
  | .sha1Create => []
  | .sha1AddData data => data
  | .sha1Finalize => []
  | .sha1Digest => []

/-- The command's opcode (R75). -/
def Instr.opcode : Instr → Opcode
  | .aesExpand _ => .aesExpand
  | .aesEncBlock _ => .aesEncBlock
  | .aesEncEcb _ => .aesEncEcb
  | .sha1Create => .sha1Create
  | .sha1AddData _ => .sha1AddData
  | .sha1Finalize => .sha1Finalize
  | .sha1Digest => .sha1Digest

end Sys2Proof
end

