-- ==== Sys2Proof/WellFormed.lean ====
section
/-! DEFINITION. Which commands a frame can spell: `LEN` is at most `MAX_PAYLOAD` (R71), an open parameter and so an argument
(D4, log 6), and the payload of `AES_ENC_BLOCK` has exactly 16 bytes (R74, R78). The other formats put no bound on a payload;
the `N` commands carry none. -/

namespace Sys2Proof

/-- `LEN` may be any value from 0 to `MAX_PAYLOAD` (R71). -/
def Instr.lenFits (maxPayload : Nat) (i : Instr) : Bool :=
  decide (i.payload.length ≤ maxPayload)

/-- Format `B16` admits only `LEN` 16 (R74). -/
def Instr.blockIsWhole : Instr → Bool
  | .aesEncBlock block => block.length == 16
  | .aesExpand _ => true
  | .aesEncEcb _ => true
  | .sha1Create => true
  | .sha1AddData _ => true
  | .sha1Finalize => true
  | .sha1Digest => true

/-- A command that some frame spells on a `CORE` whose `MAX_PAYLOAD` is `maxPayload` (R71, R74, R81). -/
def Instr.wellFormed (maxPayload : Nat) (i : Instr) : Bool :=
  i.lenFits maxPayload && i.blockIsWhole

end Sys2Proof
end

