-- ==== Sys2Proof/Decode.lean ====
section
/-! DEFINITION. Byte order, the serial frame, the decoder (30_encoding.md R70 to R81) and, after it, the encoder; then the
textual forms (R82, R83) and the two views the host reads the decoder through. -/

namespace Sys2Proof

/-! ### Byte order -/

/-- `BE32(s)`: the first byte is the most significant (R15, R53). -/
def be32 (b0 b1 b2 b3 : Byte) : Word :=
  b0.setWidth 32 <<< 24 ||| b1.setWidth 32 <<< 16 ||| b2.setWidth 32 <<< 8 ||| b3.setWidth 32

/-- `BE32bytes(w)` (R15). -/
def be32Bytes (w : Word) : List Byte :=
  [w.extractLsb' 24 8, w.extractLsb' 16 8, w.extractLsb' 8 8, w.extractLsb' 0 8]

/-- `BE64bytes(n)`: byte `i` is `n[63-8i : 56-8i]` (R15). -/
def be64Bytes (n : BitVec 64) : List Byte :=
  (List.range 8).map fun i => n.extractLsb' (56 - 8 * i) 8

/-! ### Opcodes and formats -/

/-- The `OP` value of an opcode (R75). -/
def Opcode.byte : Opcode → Byte
  | .aesExpand => 0x10
  | .aesEncBlock => 0x11
  | .aesEncEcb => 0x12
  | .sha1Create => 0x20
  | .sha1AddData => 0x21
  | .sha1Finalize => 0x22
  | .sha1Digest => 0x23

/-- The opcodes, in the order of the table of R75. -/
def Opcode.all : List Opcode :=
  [.aesExpand, .aesEncBlock, .aesEncEcb, .sha1Create, .sha1AddData, .sha1Finalize, .sha1Digest]

/-- The opcode an `OP` byte names; every other value names none (R77). -/
def Opcode.ofByte (op : Byte) : Option Opcode :=
  Opcode.all.find? fun o => o.byte == op

/-- The payload format of an opcode (R75). -/
def Opcode.format : Opcode → Format
  | .aesExpand => .k
  | .aesEncBlock => .b16
  | .aesEncEcb => .v
  | .sha1Create => .n
  | .sha1AddData => .v
  | .sha1Finalize => .n
  | .sha1Digest => .n

/-- The `LEN` values a format allows (R74). -/
def Format.allows : Format → Nat → Bool
  | .n, len => len == 0
  | .b16, len => len == 16
  | .k, _ => true
  | .v, _ => true

/-- The least `LEN` a format allows (R74). -/
def Format.leastLen : Format → Nat
  | .n => 0
  | .b16 => 16
  | .k => 0
  | .v => 0

/-- The command an opcode and a payload make (R75). -/
def Opcode.command : Opcode → List Byte → Instr
  | .aesExpand, p => .aesExpand p
  | .aesEncBlock, p => .aesEncBlock p
  | .aesEncEcb, p => .aesEncEcb p
  | .sha1Create, _ => .sha1Create
  | .sha1AddData, p => .sha1AddData p
  | .sha1Finalize, _ => .sha1Finalize
  | .sha1Digest, _ => .sha1Digest

/-! ### Frames and the decoder -/

/-- A command frame `(OP, LEN, PAYLOAD)` with `len(PAYLOAD) = LEN` (R70, R81); `LEN` is `payload.length`. -/
structure Frame where
  op : Byte
  payload : List Byte
deriving DecidableEq, Repr

/-- Why a byte sequence gives no command. -/
inductive DecodeError where
  /-- the serial frame is not complete: fewer than 5 + `LEN` bytes are there (R73) -/
  | incomplete
  /-- an `OP` value that is none of the seven (R77) -/
  | unknownOp (op : Byte)
  /-- a `LEN` the opcode's format forbids (R78) -/
  | badLength (o : Opcode) (len : Nat)
deriving DecidableEq, Repr

/-- Takes one frame off the front of a serial byte sequence `[OP] ‖ BE32bytes(LEN) ‖ PAYLOAD ‖ rest` (R73, R80). It takes every
`LEN`: a frame longer than `MAX_PAYLOAD` "cannot be presented" (U15, log 6). -/
def splitFrame : List Byte → Option (Frame × List Byte)
  | op :: l0 :: l1 :: l2 :: l3 :: bytes =>
    let len := (be32 l0 l1 l2 l3).toNat
    if len ≤ bytes.length then some ({ op := op, payload := bytes.take len }, bytes.drop len) else none
  | _ => none

/-- The decoder of R81: total on every frame, rejecting by name. -/
def decodeFrame (f : Frame) : Except DecodeError Instr :=
  match Opcode.ofByte f.op with
  | none => .error (.unknownOp f.op)
  | some o =>
    if o.format.allows f.payload.length then .ok (o.command f.payload)
    else .error (.badLength o f.payload.length)

/-- The decoder on serial bytes: the command at the front and the bytes after it (R73, R81). -/
def decode (bytes : List Byte) : Except DecodeError (Instr × List Byte) :=
  match splitFrame bytes with
  | none => .error .incomplete
  | some (f, rest) =>
    match decodeFrame f with
    | .ok i => .ok (i, rest)
    | .error e => .error e

/-! ### The encoder -/

/-- The frame of a command (R70, R75). -/
def Instr.frame (i : Instr) : Frame :=
  { op := i.opcode.byte, payload := i.payload }

/-- The serial form of a frame, `[OP] ‖ BE32bytes(LEN) ‖ PAYLOAD` (R73). -/
def Frame.bytes (f : Frame) : List Byte :=
  f.op :: be32Bytes (BitVec.ofNat 32 f.payload.length) ++ f.payload

/-- The serial bytes of a command (R73). -/
def encode (i : Instr) : List Byte :=
  i.frame.bytes

/-! ### Names and the pseudo-command -/

/-- The mnemonic of a command (R75). -/
def Opcode.mnemonic : Opcode → String
  | .aesExpand => "AES_EXPAND"
  | .aesEncBlock => "AES_ENC_BLOCK"
  | .aesEncEcb => "AES_ENC_ECB"
  | .sha1Create => "SHA1_CREATE"
  | .sha1AddData => "SHA1_ADD_DATA"
  | .sha1Finalize => "SHA1_FINALIZE"
  | .sha1Digest => "SHA1_DIGEST"

/-- The source's name of the function a command stands for (R83). -/
def Opcode.sourceName : Opcode → String
  | .aesExpand => "aes128_expand_key"
  | .aesEncBlock => "aes128_encrypt_block"
  | .aesEncEcb => "aes128_encrypt"
  | .sha1Create => "sha1_create"
  | .sha1AddData => "sha1_add_data"
  | .sha1Finalize => "sha1_finalize"
  | .sha1Digest => "sha1_digest"

/-- One hexadecimal digit (R82). -/
def hexDigit (n : Nat) : Char :=
  ['0', '1', '2', '3', '4', '5', '6', '7', '8', '9', 'a', 'b', 'c', 'd', 'e', 'f'].getD n '0'

/-- A byte string as hex, two digits per byte, index 0 first (R13, R82). -/
def hexOf (bytes : List Byte) : String :=
  String.ofList (bytes.flatMap fun b => [hexDigit (b.toNat / 16), hexDigit (b.toNat % 16)])

/-- A command in the textual notation: the mnemonic, then the payload in hex where the format has one (R82). -/
def Instr.text (i : Instr) : String :=
  match i.opcode.format with
  | .n => i.opcode.mnemonic
  | .b16 => i.opcode.mnemonic ++ " " ++ hexOf i.payload
  | .k => i.opcode.mnemonic ++ " " ++ hexOf i.payload
  | .v => i.opcode.mnemonic ++ " " ++ hexOf i.payload

/-- Data cut into pieces of at most `max` bytes, in order, with at most `cuts` cuts; data that fits is one piece, the empty
data too. DESIGN CHOICE (log 13): the spec says of long data only that it is given in "several" commands (R212); here every
piece but the last has `max` bytes. -/
def splitPayload (max : Nat) : Nat → List Byte → List (List Byte)
  | 0, data => [data]
  | cuts + 1, data =>
    if data.length ≤ max then [data] else data.take max :: splitPayload max cuts (data.drop max)

/-- The payloads of the `SHA1_ADD_DATA` commands of `SHA1_HASH <data>`: one, or several where `data` is longer than
`MAX_PAYLOAD` (R212). Where long data is cut, and so how many there are, is the model's DESIGN CHOICE (log 13); the digest is
the same for every cut (R206). -/
def sha1HashPayloads (maxPayload : Nat) (data : List Byte) : List (List Byte) :=
  splitPayload maxPayload (data.length / maxPayload) data

/-- The pseudo-command `SHA1_HASH <data>`: `SHA1_CREATE`, `SHA1_ADD_DATA <data>`, `SHA1_FINALIZE`, `SHA1_DIGEST`, with
`<data>` given in several `SHA1_ADD_DATA` where it is longer than `MAX_PAYLOAD` (R82, R212), cut as log 13 says. -/
def sha1HashCommands (maxPayload : Nat) (data : List Byte) : List Instr :=
  .sha1Create :: (sha1HashPayloads maxPayload data).map Instr.sha1AddData ++ [.sha1Finalize, .sha1Digest]

/-! ### The opcode table's rows, for the host -/

/-- Byte `j` of an instruction whose bits are `w`: bit 0 is the least significant bit of the first byte. -/
def tableByte (w j : Nat) : Byte :=
  BitVec.ofNat 8 (w >>> (8 * j))

/-- `LEN` of the frame a table row stands for: the four bytes after `OP` where the row gives them; where the row gives `OP`
alone (all seven rows do), the least `LEN` the opcode's format allows, so that the row's word is a command (log 7). -/
def tableLen (nbits w : Nat) : Nat :=
  if 8 < nbits then (be32 (tableByte w 1) (tableByte w 2) (tableByte w 3) (tableByte w 4)).toNat
  else match Opcode.ofByte (tableByte w 0) with
    | some o => o.format.leastLen
    | none => 0

/-- The serial frame of a table row: `OP`, `LEN`, and the payload bytes, zero above the bits the row gives. -/
def tableFrame (nbits w : Nat) : List Byte :=
  Frame.bytes { op := tableByte w 0, payload := (List.range (tableLen nbits w)).map fun j => tableByte w (5 + j) }

/-- The instruction the decoder reads from a table row's word. -/
def decodeTableWord (nbits w : Nat) : Option Instr :=
  match decode (tableFrame nbits w) with
  | .ok (i, _) => some i
  | .error _ => none

end Sys2Proof
end

