-- ==== Sys2Proof/Machine/Compress.lean ====
section
/-! DEFINITION. The SHA-1 message schedule and compression function (43_sha1_compressor.md R170 to R184). -/

namespace Sys2Proof.Machine

/-- `RotL32(x, n)` for `0 < n < 32` (R170). -/
def rotL32 (x : Word) (n : Nat) : Word :=
  (x <<< n) ||| (x >>> (32 - n))

/-- The big-endian words of a byte sequence, four bytes each (R53). -/
def wordsOf : List Byte → List Word
  | b0 :: b1 :: b2 :: b3 :: bytes => be32 b0 b1 b2 b3 :: wordsOf bytes
  | _ => []

/-- `W[0..15]`: the big-endian words read directly from the block (R171). -/
def blockWords (block : Buffer) : List Word :=
  wordsOf (bytesOf block)

/-- The next word `W[i]`, `i >= 16`, from `W[0..i-1]` (R172). -/
def nextWord (w : List Word) : Word :=
  let i := w.length
  rotL32 (w.getD (i - 3) 0 ^^^ w.getD (i - 8) 0 ^^^ w.getD (i - 14) 0 ^^^ w.getD (i - 16) 0) 1

/-- `n` expansion steps, in increasing `i` (R172). -/
def extendSchedule : Nat → List Word → List Word
  | 0, w => w
  | n + 1, w => extendSchedule n (w ++ [nextWord w])

/-- The message schedule `W[0..79]` of a block (R171, R172). -/
def messageSchedule (block : Buffer) : List Word :=
  extendSchedule 64 (blockWords block)

/-- `F(t, b, c, d)` (R173). -/
def sha1F (t : Nat) (b c d : Word) : Word :=
  if t < 20 then (b &&& c) ||| (~~~b &&& d)
  else if t < 40 then b ^^^ c ^^^ d
  else if t < 60 then (b &&& c) ||| (b &&& d) ||| (c &&& d)
  else b ^^^ c ^^^ d

/-- One round, `Round(t)` with `W[t] = x`; every right side is the value before the round (R178). -/
def sha1Round (t : Nat) (x : Word) (v : WorkVars) : WorkVars :=
  { a := rotL32 v.a 5 + sha1F t v.b v.c v.d + v.e + sha1K t + x
    b := v.a
    c := rotL32 v.b 30
    d := v.c
    e := v.d }

/-- The working variables at the start (R175). -/
def sha1Start (h : Hash) : WorkVars :=
  { a := h.h0, b := h.h1, c := h.h2, d := h.h3, e := h.h4 }

/-- The rounds from `t` on, one for each word of the schedule that is left, in increasing `t` (R178, R183). -/
def sha1Rounds : Nat → List Word → WorkVars → WorkVars
  | _, [], v => v
  | t, x :: w, v => sha1Rounds (t + 1) w (sha1Round t x v)

/-- The final addition, modulo 2^32 (R180). -/
def sha1Add (h : Hash) (v : WorkVars) : Hash :=
  { h0 := h.h0 + v.a, h1 := h.h1 + v.b, h2 := h.h2 + v.c, h3 := h.h3 + v.d, h4 := h.h4 + v.e }

/-- `Sha1Compress(H, block)` (R181). -/
def sha1Compress (h : Hash) (block : Buffer) : Hash :=
  sha1Add h (sha1Rounds 0 (messageSchedule block) (sha1Start h))

/-- The digest bytes of five state words (R54, R204). -/
def digestBytes (h : Hash) : List Byte :=
  be32Bytes h.h0 ++ be32Bytes h.h1 ++ be32Bytes h.h2 ++ be32Bytes h.h3 ++ be32Bytes h.h4

end Sys2Proof.Machine
end

