-- ==== Sys2Proof/Machine/State.lean ====
section
/-! DEFINITION. The state of CORE (10_state.md R20 to R46), its responses, the reasons a step can stop (there are none) and
the state after reset. The constant tables are not state (R20 class a): they stand in Machine/Tables.lean. -/

namespace Sys2Proof.Machine

/-- `SHA_PHASE` (R35). -/
inductive ShaPhase where
  /-- no context exists; only from reset to the first `SHA1_CREATE` -/
  | none
  /-- a context exists and accepts data -/
  | created
  /-- the context is terminal and only read by `SHA1_DIGEST` -/
  | finalized
deriving DecidableEq, Repr

/-- The statuses of a response (R76). -/
inductive Status where
  | ok
  | unsupportedKeySize
  | invalidBlockLength
  | sequenceError
  | illegalCommand
deriving DecidableEq, Repr

/-- A response (R72): `STATUS` and `RPAYLOAD`; `RLEN` is the payload's length. -/
structure Response where
  status : Status
  payload : List Byte
deriving DecidableEq, Repr

/-- The transient registers (R20 class c, R23 to R25, R36, R37): `ST`, `KS_P`, `KS_RI`, `RND`, `W`, `A..E`, `T`. Between
commands they have no architectural value (R38); State holds free values in them (log 2). -/
structure Transient where
  st : Block
  ksP : BitVec 8
  ksRi : BitVec 4
  rnd : BitVec 4
  w : MsgSchedule
  vars : WorkVars
  t : BitVec 7
deriving DecidableEq, Repr

/-- The state of CORE between two commands. -/
structure State where
  /-- `RKS` (R21) -/
  rks : Schedule
  /-- `RKS_VALID` (R22) -/
  rksValid : Bool
  /-- `H` (R30) -/
  h : Hash
  /-- `BUF` (R31) -/
  buf : Buffer
  /-- `BUFLEN`, range 0..64 (R32) -/
  buflen : Fin 65
  /-- `MSGLEN` (R33) -/
  msglen : BitVec 64
  /-- `SHA_PHASE` (R35) -/
  phase : ShaPhase
  /-- the transient registers (R38) -/
  tr : Transient
  /-- the number of the next free value; the model's own field (log 2) -/
  freeCount : Nat
  /-- the command port: the serial bytes the host has given and CORE has not taken (R70, R73, log 4) -/
  hostIn : List Byte
  /-- the response port: the response to the last command answered (R72, log 5) -/
  response : Option Response
deriving DecidableEq, Repr

/-- No fault exists: "Nothing in `CORE` is `stuck` and nothing is a `fault` in the sense of stopping the machine"
(93_implementation_defined.md part 1, R222). The type has no constructor, so no step can stop with one; safe. -/
inductive Fault
deriving DecidableEq, Repr

/-- Reasons to refuse a command. -/
inductive Refusal where
  /-- An arm of `exec` whose command has no meaning yet; raised by no arm of this model. Safe: it stops the model. -/
  | notModelled (mnemonic : String)
deriving DecidableEq, Repr

/-- The outcome of a command. -/
abbrev Reply := Host.Outcome State Fault Refusal

/-- The transient registers at the free values numbered `n` (R38). -/
def Transient.free (n : Nat) : Transient where
  st := Config.freeSt n
  ksP := Config.freeKsP n
  ksRi := Config.freeKsRi n
  rnd := Config.freeRnd n
  w := Config.freeW n
  vars := Config.freeVars n
  t := Config.freeT n

/-- The state after a reset whose unspecified contents are numbered `n` (R45, R240): `RKS_VALID = 0`, `SHA_PHASE = None`; every
data register unspecified (log 1, log 3); no command pending and none answered (log 4, log 5). -/
def State.resetWith (n : Nat) : State where
  rks := Config.resetRks n
  rksValid := false
  h := Config.resetH n
  buf := Config.resetBuf n
  buflen := Config.resetBuflen n
  msglen := Config.resetMsglen n
  phase := .none
  tr := Transient.free n
  freeCount := n + 1
  hostIn := []
  response := none

/-- The state after the first reset (R45, R240). -/
def State.reset : State :=
  State.resetWith 0

end Sys2Proof.Machine
end

