-- ==== Sys2Proof/Machine/Flags.lean ====
section
/-! DEFINITION. CORE has no flags or condition codes: "the result of a command is reported only in the status code of its
response" (10_state.md R42). So this file holds the status codes and the serial form of a response (30_encoding.md R72, R73,
R76), and the tests of the two control registers that admit a command (60_exceptions.md R225). -/

namespace Sys2Proof.Machine

/-- The code of a status (R76). -/
def Status.code : Status → Byte
  | .ok => 0x00
  | .unsupportedKeySize => 0x01
  | .invalidBlockLength => 0x02
  | .sequenceError => 0x80
  | .illegalCommand => 0x81

/-- The name of a status (R76). -/
def Status.name : Status → String
  | .ok => "OK"
  | .unsupportedKeySize => "UnsupportedKeySize"
  | .invalidBlockLength => "InvalidBlockLength"
  | .sequenceError => "SequenceError"
  | .illegalCommand => "IllegalCommand"

/-- `RLEN`, the number of response payload bytes (R72). -/
def Response.rlen (r : Response) : Word :=
  BitVec.ofNat 32 r.payload.length

/-- The serial form of a response, `[STATUS] ‖ BE32bytes(RLEN) ‖ RPAYLOAD` (R73). -/
def Response.bytes (r : Response) : List Byte :=
  r.status.code :: be32Bytes r.rlen ++ r.payload

/-- A response in the textual notation (R82). -/
def Response.text (r : Response) : String :=
  if r.payload = [] then "-> " ++ r.status.name else "-> " ++ r.status.name ++ " " ++ hexOf r.payload

/-- The encryption commands need a schedule: `RKS_VALID = 1` (R225). -/
def State.hasSchedule (s : State) : Bool :=
  s.rksValid

/-- `SHA1_ADD_DATA` and `SHA1_FINALIZE` need phase `Created` (R205, R225). -/
def State.acceptsData (s : State) : Bool :=
  s.phase == .created

/-- `SHA1_DIGEST` needs phase `Finalized` (R205, R225). -/
def State.hasDigest (s : State) : Bool :=
  s.phase == .finalized

end Sys2Proof.Machine
end

