-- ==== Sys2Proof/Machine/Operands.lean ====
section
/-! DEFINITION. The operand forms. There are no immediates, addresses or register numbers: "operand forms do not exist beyond
the four formats" (30_encoding.md R80, R74), and each command's operand is its payload. -/

namespace Sys2Proof.Machine

/-- The operand of a command that works on exactly 16 bytes: `PAYLOAD[0..15]`, absent where `LEN` is another (R130, R150). -/
def blockOperand (payload : List Byte) : Option Block :=
  if payload.length = 16 then some (toBlock payload) else none

/-- The operand of `AES_ENC_ECB`: the number of 16-byte blocks, absent where `LEN mod 16 != 0` (R151, R152). -/
def ecbOperand (payload : List Byte) : Option Nat :=
  if payload.length % 16 = 0 then some (payload.length / 16) else none

end Sys2Proof.Machine
end

