-- ==== Sys2Proof/Machine/Ops.lean ====
section
/-! DEFINITION. The operations on State that the commands share: taking a command from the port, answering it, raising an
error, the transient registers, and the SHA-1 buffer operations of 44_sha1_engine.md R190 to R195. -/

namespace Sys2Proof.Machine

/-! ### The ports -/

/-- Takes the next complete frame from the command port (R57, R73): the frame and the state without its bytes; `none` while
no complete frame is there. -/
def State.fetch (s : State) : Option (Frame × State) :=
  match splitFrame s.hostIn with
  | none => none
  | some (f, rest) => some (f, { s with hostIn := rest })

/-- The response port takes a response (R72). -/
def State.setResponse (s : State) (r : Response) : State :=
  { s with response := some r }

/-- `return payload`: the command answers `OK` with this payload (R17, R72). -/
def State.respond (s : State) (payload : List Byte) : Reply :=
  .next (s.setResponse { status := .ok, payload := payload })

/-- `raise e`: the one way a command ends in an error (R17, R222). No register changes; the response is the error's status
with an empty payload; CORE is ready for the next command. It is applied to the state the command found. There is no handler
and so no return from one (R229). -/
def State.raise (s : State) (e : Status) : Reply :=
  .next (s.setResponse { status := e, payload := [] })

/-- Reset, "an event outside the command stream" (R240): no command and no step does it; the outside can do it between two
commands. What it leaves unspecified is fresh each time (log 1, log 12). -/
def State.resetEvent (s : State) : State :=
  State.resetWith s.freeCount

/-! ### The transient registers (R38, log 2) -/

/-- After a key expansion `KS_P` and `KS_RI` have no architectural value (R24, R38). -/
def State.dropKeyRegs (s : State) : State :=
  { s with
    tr := { s.tr with ksP := Config.freeKsP s.freeCount, ksRi := Config.freeKsRi s.freeCount }
    freeCount := s.freeCount + 1 }

/-- After an encryption `ST` and `RND` have no architectural value (R23, R25, R38). -/
def State.dropCipherRegs (s : State) : State :=
  { s with
    tr := { s.tr with st := Config.freeSt s.freeCount, rnd := Config.freeRnd s.freeCount }
    freeCount := s.freeCount + 1 }

/-- After a compression `W`, `A..E` and `T` have no value (R184). -/
def State.dropCompressRegs (s : State) : State :=
  { s with
    tr := { s.tr with
      w := Config.freeW s.freeCount, vars := Config.freeVars s.freeCount, t := Config.freeT s.freeCount }
    freeCount := s.freeCount + 1 }

/-! ### The SHA-1 buffer -/

/-- `H <- h` (R16, R30). -/
def State.setHash (s : State) (h : Hash) : State :=
  { s with h := h }

/-- `BUF <- buf; BUFLEN <- buflen; MSGLEN <- msglen` (R16, R31 to R33). -/
def State.setBuffer (s : State) (buf : Buffer) (buflen : Fin 65) (msglen : BitVec 64) : State :=
  { s with buf := buf, buflen := buflen, msglen := msglen }

/-- `SHA_PHASE <- phase` (R16, R35). -/
def State.setPhase (s : State) (phase : ShaPhase) : State :=
  { s with phase := phase }

/-- `FreeSpace()` (R191). -/
def State.freeSpace (s : State) : Nat :=
  64 - s.buflen.val

/-- `Append` of the given bytes (R190). Its precondition `BUFLEN + length <= 64` holds at every call; were it violated
nothing would be appended (93_implementation_defined.md U3, log 11). -/
def State.append (s : State) (bytes : List Byte) (counted : Bool) : State :=
  if fits : s.buflen.val + bytes.length ≤ 64 then
    s.setBuffer (memWrite s.buf s.buflen.val bytes) ⟨s.buflen.val + bytes.length, Nat.lt_succ_of_le fits⟩
      (if counted then s.msglen + BitVec.ofNat 64 bytes.length else s.msglen)
  else s

/-- `ResetBuffer()` (R192). -/
def State.resetBuffer (s : State) : State :=
  s.setBuffer (Vector.replicate 64 0) 0 s.msglen

/-- `CompressBuffer()`: compress all of `BUF` into `H`, then reset the buffer (R195). -/
def State.compressBuffer (s : State) : State :=
  (s.dropCompressRegs.setHash (sha1Compress s.h s.buf)).resetBuffer

/-- One turn of the loop of `Absorb`: append the first `k` bytes, compress if the buffer is full (R194). -/
def State.absorbChunk (s : State) (chunk : List Byte) (counted : Bool) : State :=
  let s' := s.append chunk counted
  if s'.buflen = 64 then s'.compressBuffer else s'

/-- The loop of `Absorb`, at most `fuel` turns. -/
def absorbLoop (counted : Bool) : Nat → List Byte → State → State
  | 0, _, s => s
  | fuel + 1, data, s =>
    if data = [] then s
    else
      let k := min s.freeSpace data.length
      absorbLoop counted fuel (data.drop k) (s.absorbChunk (data.take k) counted)

/-- `Absorb(data, counted)` (R194). Every turn but perhaps the first takes a byte, so `len(data) + 1` turns are enough. -/
def State.absorb (s : State) (data : List Byte) (counted : Bool) : State :=
  absorbLoop counted (data.length + 1) data s

/-- `PaddingByteCount()` as a function of `BUFLEN`, by the source's formula (R193). -/
def paddingByteCount (buflen : Nat) : Nat :=
  let bits := 8 * buflen
  if bits < 448 then (448 - bits) / 8
  else if 448 < bits then (960 - bits) / 8
  else 64

/-- The bytes `SHA1_FINALIZE` absorbs: `0x80`, `n-1` zeros, and the bit length of the message (R202). -/
def padding (buflen : Nat) (msglen : BitVec 64) : List Byte :=
  0x80 :: List.replicate (paddingByteCount buflen - 1) 0 ++ be64Bytes (8 * msglen)

end Sys2Proof.Machine
end

