-- ==== Sys2Proof/Machine/Aes.lean ====
section
/-! DEFINITION. The meanings of the AES commands (41_aes_key_schedule.md R130, R131; 42_aes_cipher.md R150 to R154). -/

namespace Sys2Proof.Machine

/-- A successful `AES_EXPAND` latches the schedule (R130). -/
def State.latchSchedule (s : State) (rks : Schedule) : State :=
  { s.dropKeyRegs with rks := rks, rksValid := true }

/-- `AES_EXPAND` (R130, R131). -/
def execAesExpand (key : List Byte) (s : State) : Reply :=
  match blockOperand key with
  | none => s.raise .unsupportedKeySize
  | some k => (s.latchSchedule (expandKey k)).respond (bytesOf (expandKey k))

/-- `AES_ENC_BLOCK` (R150). A payload that is not 16 bytes long spells no command (R78) and never comes from the decoder;
given one all the same, the answer is that of R78 (log 10). -/
def execAesEncBlock (block : List Byte) (s : State) : Reply :=
  match blockOperand block with
  | none => s.raise .illegalCommand
  | some b =>
    if s.hasSchedule then s.dropCipherRegs.respond (bytesOf (encryptBlock s.rks b))
    else s.raise .sequenceError

/-- `AES_ENC_ECB`: the schedule is checked first (R227), then the length (R151, R152). -/
def execAesEncEcb (data : List Byte) (s : State) : Reply :=
  if s.hasSchedule then
    match ecbOperand data with
    | none => s.raise .invalidBlockLength
    | some n => s.dropCipherRegs.respond (encryptEcb s.rks n data)
  else s.raise .sequenceError

end Sys2Proof.Machine
end

