-- ==== Sys2Proof/Machine/Sha1.lean ====
section
/-! DEFINITION. The meanings of the SHA-1 commands (44_sha1_engine.md R200 to R205). -/

namespace Sys2Proof.Machine

/-- A context created empty (R200). -/
def State.createContext (s : State) : State :=
  ((s.setHash sha1Iv).setBuffer (Vector.replicate 64 0) 0 0).setPhase .created

/-- The padding absorbed uncounted, from the values of `BUFLEN` and `MSGLEN` before it, and the context made terminal (R202). -/
def State.finalizeContext (s : State) : State :=
  (s.absorb (padding s.buflen.val s.msglen) false).setPhase .finalized

/-- `SHA1_CREATE`, allowed in every phase (R200). -/
def execSha1Create (s : State) : Reply :=
  s.createContext.respond []

/-- `SHA1_ADD_DATA` (R201). -/
def execSha1AddData (data : List Byte) (s : State) : Reply :=
  if s.acceptsData then (s.absorb data true).respond [] else s.raise .sequenceError

/-- `SHA1_FINALIZE` (R202). -/
def execSha1Finalize (s : State) : Reply :=
  if s.acceptsData then s.finalizeContext.respond [] else s.raise .sequenceError

/-- `SHA1_DIGEST` (R204). -/
def execSha1Digest (s : State) : Reply :=
  if s.hasDigest then s.respond (digestBytes s.h) else s.raise .sequenceError

end Sys2Proof.Machine
end

