-- ==== Sys2Proof/Machine/Dispatch.lean ====
section
/-! DEFINITION. One arm per command of spec/opcode_table.json. -/

namespace Sys2Proof.Machine

def exec (i : Instr) (s : State) : Host.Outcome State Fault Refusal :=
  match i with
  | .aesExpand key => Sys2Proof.Machine.execAesExpand key s
  | .aesEncBlock block => Sys2Proof.Machine.execAesEncBlock block s
  | .aesEncEcb data => Sys2Proof.Machine.execAesEncEcb data s
  | .sha1Create => Sys2Proof.Machine.execSha1Create s
  | .sha1AddData data => Sys2Proof.Machine.execSha1AddData data s
  | .sha1Finalize => Sys2Proof.Machine.execSha1Finalize s
  | .sha1Digest => Sys2Proof.Machine.execSha1Digest s

end Sys2Proof.Machine
end

