-- ==== Sys2Proof/Machine/Answer.lean ====
section
/-! DEFINITION. The answer to a frame: decode it and run the command, or answer that it spells none (30_encoding.md R77, R78,
R81). -/

namespace Sys2Proof.Machine

/-- The answer to a fetched frame: the command it spells runs; a frame that spells none is answered `IllegalCommand` and
changes nothing (R77, R78, R226). -/
def answer (f : Frame) (s : State) : Host.Outcome State Fault Refusal :=
  match decodeFrame f with
  | .ok i => exec i s
  | .error _ => s.raise .illegalCommand

end Sys2Proof.Machine
end

