-- ==== Sys2Proof/Machine/Step.lean ====
section
/-! DEFINITION. One step: CORE takes the next command from its port and answers it (20_memory.md R57, 30_encoding.md R81). -/

namespace Sys2Proof.Machine

/-- One step. With no complete frame at the port CORE waits and nothing changes (R241, log 4). -/
def step (s : State) : Host.Outcome State Fault Refusal :=
  match s.fetch with
  | none => .next s
  | some (f, s') => answer f s'

/-- The state with a table row's command presented next at the command port (log 4, log 7). -/
def State.withFetchWord (s : State) (nbits w : Nat) : State :=
  { s with hostIn := tableFrame nbits w ++ s.hostIn }

end Sys2Proof.Machine
end

