-- ==== Sys2Proof/Safety.lean ====
section
/-! DEFINITION. The terms claims are stated in: what a safe answer is, which registers two states share, the invariants of
the schedule and of the SHA-1 context (10_state.md R22, R34, 44_sha1_engine.md R202, R208), and what the host can tell apart
(10_state.md R45, R46). -/

namespace Sys2Proof.Machine

/-- A safe answer: the machine goes on (R222, "leaves CORE ready for the next"). -/
def Goes (o : Host.Outcome State Fault Refusal) : Prop :=
  ∃ t, o = .next t

/-! ### Registers two states share -/

/-- The AES registers `RKS`, `RKS_VALID` are the same. -/
def SameAes (s t : State) : Prop :=
  t.rks = s.rks ∧ t.rksValid = s.rksValid

/-- The SHA-1 registers `H`, `BUF`, `BUFLEN`, `MSGLEN`, `SHA_PHASE` are the same. -/
def SameSha (s t : State) : Prop :=
  t.h = s.h ∧ t.buf = s.buf ∧ t.buflen = s.buflen ∧ t.msglen = s.msglen ∧ t.phase = s.phase

/-- Every persistent register (R20 class b) is the same. -/
def SamePersistent (s t : State) : Prop :=
  SameAes s t ∧ SameSha s t

/-- The transient registers of the key schedule may differ, no others. -/
def SameTrButKey (s t : State) : Prop :=
  t.tr = { s.tr with ksP := t.tr.ksP, ksRi := t.tr.ksRi }

/-- The transient registers of the cipher may differ, no others. -/
def SameTrButCipher (s t : State) : Prop :=
  t.tr = { s.tr with st := t.tr.st, rnd := t.tr.rnd }

/-- The transient registers of the compression may differ, no others. -/
def SameTrButCompress (s t : State) : Prop :=
  t.tr = { s.tr with w := t.tr.w, vars := t.tr.vars, t := t.tr.t }

/-! ### SHA-1 in closed form -/

/-- The state after compressing the whole 64-byte blocks of a byte sequence, in order (R34 d, R64). -/
def hashBlocks (h : Hash) (bytes : List Byte) : Hash :=
  (List.range (bytes.length / 64)).foldl (fun h j => sha1Compress h (toBuffer ((bytes.drop (64 * j)).take 64))) h

/-- The bytes after the whole 64-byte blocks (R34 d). -/
def leftover (bytes : List Byte) : List Byte :=
  bytes.drop (64 * (bytes.length / 64))

/-- A byte sequence of at most 64 bytes followed by zeros to the length of `BUF` (R34 c). -/
def paddedBuffer (bytes : List Byte) : Buffer :=
  toBuffer bytes

/-- The padded message `M ‖ 0x80 ‖ 0^z ‖ BE64bytes(8m)`, `z = (55 - m) mod 64` (R208). -/
def paddedMessage (m : List Byte) : List Byte :=
  m ++ 0x80 :: List.replicate ((119 - m.length % 64) % 64) 0 ++ be64Bytes (8 * BitVec.ofNat 64 m.length)

/-! ### Invariants -/

/-- While `RKS_VALID` is 1, `RKS` holds a schedule produced by the expansion of some key (R22). -/
def ScheduleInv (s : State) : Prop :=
  s.rksValid = true → ∃ key : Block, s.rks = expandKey key

/-- The context holds exactly the message `m` (R34). -/
def ContextHolds (s : State) (m : List Byte) : Prop :=
  s.h = hashBlocks sha1Iv m ∧ s.buf = paddedBuffer (leftover m) ∧ s.buflen.val = m.length % 64 ∧
    s.msglen = BitVec.ofNat 64 m.length

/-- In phase `Created` the context holds some message (R34). -/
def CreatedInv (s : State) : Prop :=
  s.phase = .created → ∃ m, ContextHolds s m

/-- In phase `Finalized` the hash state is that of some message, padded; the buffer is empty and zero (R202, R208). -/
def FinalizedInv (s : State) : Prop :=
  s.phase = .finalized → ∃ m : List Byte, s.h = hashBlocks sha1Iv (paddedMessage m) ∧
    s.buf = Vector.replicate 64 0 ∧ s.buflen = 0 ∧ s.msglen = BitVec.ofNat 64 m.length

/-- The invariant of the machine. -/
def Inv (s : State) : Prop :=
  ScheduleInv s ∧ CreatedInv s ∧ FinalizedInv s

/-! ### Admission -/

/-- The command needs state that the command sequence so far has not produced (R225): an encryption without a schedule, a
SHA-1 command outside its phase. -/
def MissesState (i : Instr) (s : State) : Prop :=
  match i with
  | .aesExpand _ => False
  | .aesEncBlock _ => s.rksValid = false
  | .aesEncEcb _ => s.rksValid = false
  | .sha1Create => False
  | .sha1AddData _ => s.phase ≠ .created
  | .sha1Finalize => s.phase ≠ .created
  | .sha1Digest => s.phase ≠ .finalized

/-- A command of the AES half of CORE (R86). -/
def IsAes (i : Instr) : Prop :=
  match i with
  | .aesExpand _ => True
  | .aesEncBlock _ => True
  | .aesEncEcb _ => True
  | .sha1Create => False
  | .sha1AddData _ => False
  | .sha1Finalize => False
  | .sha1Digest => False

/-! ### What the host can tell apart -/

/-- Two states that differ at most in registers guarded by `RKS_VALID = 0` or `SHA_PHASE = None`, in transient registers and
in the numbering of free values (R38, R45). -/
def SameVisible (s t : State) : Prop :=
  t.hostIn = s.hostIn ∧ t.response = s.response ∧ t.rksValid = s.rksValid ∧ t.phase = s.phase ∧
    (s.rksValid = true → t.rks = s.rks) ∧
    (s.phase ≠ .none → t.h = s.h ∧ t.buf = s.buf ∧ t.buflen = s.buflen ∧ t.msglen = s.msglen)

/-- Runs commands one after the other, stopping where one stops. -/
def execAll : List Instr → State → Host.Outcome State Fault Refusal
  | [], s => .next s
  | i :: is, s =>
    match exec i s with
    | .next t => execAll is t
    | .fault r => .fault r
    | .refused r => .refused r

end Sys2Proof.Machine
end

