-- ==== Sys2Proof/Certificates/Slice0/Obligations.lean ====
section
/-! DEFINITION. The statements for the provers. Each docstring names the rule of spec/ it formalises. -/

open Sys2Proof Sys2Proof.Machine

/-! ### Encoding -/

/-- Whatever `MAX_PAYLOAD` is, at most 2^32 - 1 (R12, R71), decoding the serial form of a well-formed command gives the command
and leaves what follows (R70, R73, R81). -/
def Obligations.DecodeOfEncodeIsTheCommand : Prop :=
  ∀ (maxPayload : Nat) (i : Instr) (rest : List Byte), maxPayload ≤ Config.maxLen → i.wellFormed maxPayload = true →
    decode (encode i ++ rest) = .ok (i, rest)

/-- Bytes that decode to a command are the serial form of that command and what follows: no two byte sequences spell one
command, no reserved frame falls through to a neighbour (R73, R77, R78). The command is well-formed for exactly those
`MAX_PAYLOAD` that its payload does not exceed, of which 2^32 - 1 is one (R71). -/
def Obligations.EncodeOfDecodeIsTheBytes : Prop :=
  ∀ (bytes rest : List Byte) (i : Instr), decode bytes = .ok (i, rest) →
    bytes = encode i ++ rest ∧ i.payload.length ≤ Config.maxLen ∧
    ∀ maxPayload : Nat, i.wellFormed maxPayload = true ↔ i.payload.length ≤ maxPayload

/-- The decision list of R81, on every frame. -/
def Obligations.FrameDecodingIsTotal : Prop :=
  ∀ f : Frame,
    (f.op ∉ ([0x10, 0x11, 0x12, 0x20, 0x21, 0x22, 0x23] : List Byte) → decodeFrame f = .error (.unknownOp f.op)) ∧
    (f.op ∈ ([0x20, 0x22, 0x23] : List Byte) → f.payload.length ≠ 0 →
      ∃ o : Opcode, o.byte = f.op ∧ decodeFrame f = .error (.badLength o f.payload.length)) ∧
    (f.op = 0x11 → f.payload.length ≠ 16 → decodeFrame f = .error (.badLength .aesEncBlock f.payload.length)) ∧
    (f.op ∈ ([0x10, 0x12, 0x21] : List Byte) ∨ (f.op ∈ ([0x20, 0x22, 0x23] : List Byte) ∧ f.payload.length = 0) ∨
        (f.op = 0x11 ∧ f.payload.length = 16) →
      ∃ i : Instr, decodeFrame f = .ok i ∧ i.opcode.byte = f.op ∧ i.payload = f.payload)

/-- A few frames written out from R73 and R75 decode to the commands they stand for. -/
def Obligations.KnownFramesDecode : Prop :=
  decode [0x20, 0, 0, 0, 0] = .ok (.sha1Create, []) ∧
  decode [0x21, 0, 0, 0, 3, 0x61, 0x62, 0x63, 0x22] = .ok (.sha1AddData [0x61, 0x62, 0x63], [0x22]) ∧
  decode [0x12, 0, 0, 0, 0] = .ok (.aesEncEcb [], []) ∧
  decode [0x10, 0, 0, 0, 2, 0xAA, 0xBB] = .ok (.aesExpand [0xAA, 0xBB], []) ∧
  decode [0x13, 0, 0, 0, 2, 0xAA, 0xBB] = .error (.unknownOp 0x13) ∧
  decode [0x20, 0, 0, 0, 1, 0] = .error (.badLength .sha1Create 1)

/-! ### The step -/

/-- When the bytes at the command port decode to a command, the step takes them and runs it (R57, R81). -/
def Obligations.StepRunsDecodedCommand : Prop :=
  ∀ (s : State) (i : Instr) (rest : List Byte),
    decode s.hostIn = .ok (i, rest) → step s = exec i { s with hostIn := rest }

/-- With no complete frame at the command port CORE waits. The model's own choice (log 4); the spec says "After reset `CORE`
waits for its first command" (R241). -/
def Obligations.StepWaitsWithoutFrame : Prop :=
  ∀ s : State, splitFrame s.hostIn = none → step s = .next s

/-- An unknown `OP` is answered `IllegalCommand`, changes nothing, and its payload is discarded unread (R77). -/
def Obligations.UnknownOpcodeIsIllegal : Prop :=
  ∀ (s : State) (f : Frame) (rest : List Byte), splitFrame s.hostIn = some (f, rest) →
    f.op ∉ ([0x10, 0x11, 0x12, 0x20, 0x21, 0x22, 0x23] : List Byte) →
    step s = .next { s with hostIn := rest, response := some { status := .illegalCommand, payload := [] } }

/-- A `LEN` the format forbids is answered `IllegalCommand` and changes nothing (R78). -/
def Obligations.ForbiddenLengthIsIllegal : Prop :=
  ∀ (s : State) (f : Frame) (rest : List Byte), splitFrame s.hostIn = some (f, rest) →
    (f.op ∈ ([0x20, 0x22, 0x23] : List Byte) ∧ f.payload.length ≠ 0) ∨ (f.op = 0x11 ∧ f.payload.length ≠ 16) →
    step s = .next { s with hostIn := rest, response := some { status := .illegalCommand, payload := [] } }

/-- Every frame gets exactly one response, taken off the port; a response that is not `OK` carries nothing, and `RLEN`
(32 bits) is the number of payload bytes (R72). -/
def Obligations.EveryFrameGetsOneResponse : Prop :=
  ∀ (s : State) (f : Frame) (rest : List Byte), splitFrame s.hostIn = some (f, rest) →
    ∃ t r, step s = .next t ∧ t.hostIn = rest ∧ t.response = some r ∧
      (r.status ≠ .ok → r.payload = []) ∧ r.rlen.toNat = r.payload.length

/-- No step stops the machine: a frame is answered, and without one CORE waits (R222 c, R228, and "every frame gets a
response and leaves `CORE` ready for the next" of 93_implementation_defined.md). -/
def Obligations.EveryStepGoesOn : Prop :=
  ∀ s : State, Goes (step s)

/-- An error changes no register, its response is the code and nothing more, no later command behaves differently, and the
same frame in the same state raises the same error (R222). -/
def Obligations.ErrorsChangeNothing : Prop :=
  ∀ (s t : State) (f : Frame) (rest : List Byte) (r : Response), splitFrame s.hostIn = some (f, rest) →
    step s = .next t → t.response = some r → r.status ≠ .ok →
    r.payload = [] ∧ t = { s with hostIn := rest, response := some r } ∧
      (∀ i : Instr, exec i t = exec i { s with hostIn := rest }) ∧ answer f t = .next t

/-- The status of every frame in every state, in the order of R227: `IllegalCommand`, then `SequenceError`, then the
operation's own error, else `OK`. -/
def Obligations.ErrorPriority : Prop :=
  ∀ (s : State) (f : Frame) (rest : List Byte), splitFrame s.hostIn = some (f, rest) →
    ∃ t r, step s = .next t ∧ t.response = some r ∧
      ((∃ e, decodeFrame f = .error e) → r.status = .illegalCommand) ∧
      (∀ i : Instr, decodeFrame f = .ok i →
        (MissesState i s → r.status = .sequenceError) ∧
        (¬ MissesState i s →
          (∀ key, i = .aesExpand key → key.length ≠ 16 → r.status = .unsupportedKeySize) ∧
          (∀ data, i = .aesEncEcb data → data.length % 16 ≠ 0 → r.status = .invalidBlockLength) ∧
          ((∀ key, i = .aesExpand key → key.length = 16) → (∀ data, i = .aesEncEcb data → data.length % 16 = 0) →
            r.status = .ok)))

/-- The status codes and their names (R76): the five values, each of its own; there is no other status. -/
def Obligations.StatusCodes : Prop :=
  (Status.code .ok = 0x00 ∧ Status.name .ok = "OK") ∧
  (Status.code .unsupportedKeySize = 0x01 ∧ Status.name .unsupportedKeySize = "UnsupportedKeySize") ∧
  (Status.code .invalidBlockLength = 0x02 ∧ Status.name .invalidBlockLength = "InvalidBlockLength") ∧
  (Status.code .sequenceError = 0x80 ∧ Status.name .sequenceError = "SequenceError") ∧
  (Status.code .illegalCommand = 0x81 ∧ Status.name .illegalCommand = "IllegalCommand") ∧
  (∀ a b : Status, a.code = b.code → a = b) ∧
  ∀ a : Status, a.code ∈ ([0x00, 0x01, 0x02, 0x80, 0x81] : List Byte)

/-! ### GaloisField -/

/-- `sbox(inverse_sbox(b)) = b` for all `b`, and the other way round (R104). -/
def Obligations.SboxesAreInverse : Prop :=
  ∀ b : Byte, sbox (invSbox b) = b ∧ invSbox (sbox b) = b

/-- The printed S-box is the one its generating formula gives, with the multiplicative inverse, that of 0 taken as 0; it has
no fixed point and no complemented one (R102). -/
def Obligations.SboxIsItsFormula : Prop :=
  ∀ b : Byte, sbox b = sboxByFormula b ∧ (b ≠ 0 → multiply b (gfInverse b) = 1) ∧ gfInverse 0 = 0 ∧
    sbox b ≠ b ∧ sbox b ≠ ~~~b

/-- The source's way of multiplying, by log and exp tables with its special cases, gives the shift-and-add product at every
pair (R105). -/
def Obligations.MultiplyByTablesAgrees : Prop :=
  ∀ a b : Byte, multiplyByTables a b = multiply a b

/-- The laws of `Multiply` (R105): commutative, zero, one, distributive over `XOR`. -/
def Obligations.MultiplyLaws : Prop :=
  ∀ a b c : Byte, multiply a b = multiply b a ∧ multiply a 0 = 0 ∧ multiply a 1 = a ∧
    multiply a (b ^^^ c) = multiply a b ^^^ multiply a c

/-- `Xtime`, and the closed forms of the three multipliers the cipher uses (R101, R109). -/
def Obligations.MultiplierClosedForms : Prop :=
  ∀ v : Byte, xtime v = (if v.getLsbD 7 = false then v <<< 1 else (v <<< 1) ^^^ 0x1B) ∧
    multiply 1 v = v ∧ multiply 2 v = xtime v ∧ multiply 3 v = xtime v ^^^ v

/-- `RCON[1] = 1` and each later entry is twice the one before (R107). -/
def Obligations.RconIsTheDoublingChain : Prop :=
  rcon 0 = 0 ∧ rcon 1 = 1 ∧ ∀ i : Fin 14, rcon (i + 2) = multiply 2 (rcon (i + 1))

/-- `EXP[i] = 3^i` for `i = 0..254` and `LOG[EXP[i]] = i` (R106). -/
def Obligations.LogExpTables : Prop :=
  (∀ i : Fin 255, (i.val = 0 → tableEntry expRows i = 1) ∧
      tableEntry expRows ((i + 1) % 255) = multiply 3 (tableEntry expRows i)) ∧
  ∀ i : Fin 255, (tableEntry logRows (tableEntry expRows i).toNat).toNat = i

/-! ### Key schedule -/

/-- The word operations of the key schedule (R120, R121, R122, R123). -/
def Obligations.KeyWordOperations : Prop :=
  (∀ w0 w1 w2 w3 : Byte, rotWord ⟨w0, w1, w2, w3⟩ = ⟨w1, w2, w3, w0⟩) ∧
  (∀ w0 w1 w2 w3 : Byte, subWord ⟨w0, w1, w2, w3⟩ = ⟨sbox w0, sbox w1, sbox w2, sbox w3⟩) ∧
  (∀ i : Nat, 1 ≤ i → i ≤ 10 → rconWord i = ⟨rcon i, 0, 0, 0⟩) ∧
  (∀ (w : AesWord) (i : Nat), 1 ≤ i → i ≤ 10 → keyCore w i = wordXor (subWord (rotWord w)) (rconWord i))

/-- The expansion recurrence, for every key and every word position (R124, R125): bytes 0..15 are the key, and the word at
`p` is the word at `p-16` XOR `temp`, with `round_index = p/16` at a round boundary. -/
def Obligations.ExpandKeyRecurrence : Prop :=
  ∀ key : Block,
    (∀ i, i < 16 → byteAt (expandKey key) i = byteAt key i) ∧
    ∀ p, 16 ≤ p → p ≤ 172 → p % 4 = 0 →
      wordAt (expandKey key) p = wordXor (wordAt (expandKey key) (p - 16))
        (if p % 16 = 0 then
          wordXor (subWord (rotWord (wordAt (expandKey key) (p - 4)))) ⟨rcon (p / 16), 0, 0, 0⟩
        else wordAt (expandKey key) (p - 4))

/-- `AES_EXPAND` (R130): with a 16-byte key it completes, latches the schedule, sets `RKS_VALID`, answers the 176 schedule
bytes, and changes no SHA-1 register; with another length it is answered `UnsupportedKeySize` and changes nothing. That its
two transient counters end free and the other transient registers keep their content is the model's choice (log 2): R38 gives
them no value between commands. -/
def Obligations.AesExpandLatchesSchedule : Prop :=
  ∀ (key : List Byte) (s : State),
    (key.length = 16 → ∃ t, exec (.aesExpand key) s = .next t ∧ t.rks = expandKey (toBlock key) ∧ t.rksValid = true ∧
      t.response = some { status := .ok, payload := bytesOf t.rks } ∧ (bytesOf t.rks).length = 176 ∧
      SameSha s t ∧ SameTrButKey s t ∧ t.hostIn = s.hostIn) ∧
    (key.length ≠ 16 → exec (.aesExpand key) s =
      .next { s with response := some { status := .unsupportedKeySize, payload := [] } })

/-- The response of a successful `AES_EXPAND` has 176 bytes, the first 16 are the key, and it depends on nothing but the key
(R127). -/
def Obligations.ExpandedScheduleShape : Prop :=
  ∀ (key : List Byte) (s u : State), key.length = 16 →
    ∃ t v r, exec (.aesExpand key) s = .next t ∧ exec (.aesExpand key) u = .next v ∧
      t.response = some r ∧ v.response = some r ∧ r.payload.length = 176 ∧ r.payload.take 16 = key

/-- A key of any length but 16 is answered `STATUS = 0x01`, `RLEN = 0`; `RKS` and `RKS_VALID` stay, as does all else; the same
frame gives the same error (R131). -/
def Obligations.WrongKeySizeIsUnsupported : Prop :=
  ∀ (key : List Byte) (s : State), key.length ≠ 16 →
    ∃ t r, t = { s with response := some r } ∧ r.status = .unsupportedKeySize ∧ r.status.code = 0x01 ∧ r.rlen = 0 ∧
      r.payload = [] ∧ exec (.aesExpand key) s = .next t ∧ exec (.aesExpand key) t = .next t

/-- Only a successful `AES_EXPAND` changes the schedule or its valid bit; while the bit is set, encryptions go on being
answered with the schedule loaded before (R132). -/
def Obligations.ScheduleLifetime : Prop :=
  ∀ (i : Instr) (s t : State), exec i s = .next t → (∀ key, i = .aesExpand key → key.length ≠ 16) →
    t.rks = s.rks ∧ t.rksValid = s.rksValid ∧
    (s.rksValid = true →
      (∀ block : List Byte, block.length = 16 → ∃ u, exec (.aesEncBlock block) t = .next u ∧
        u.response = some { status := .ok, payload := bytesOf (encryptBlock s.rks (toBlock block)) }) ∧
      (∀ data : List Byte, data.length % 16 = 0 → ∃ u, exec (.aesEncEcb data) t = .next u ∧
        u.response = some { status := .ok, payload := encryptEcb s.rks (data.length / 16) data }))

/-! ### Cipher -/

/-- `SubBytes` and `AddRoundKey` byte by byte, with round key `r` the bytes `RKS[16r..16r+15]`; a zero round key changes
nothing, and adding a round key twice is the identity (R140, R143). -/
def Obligations.BytewiseOperations : Prop :=
  ∀ (s k : Block) (rks : Schedule) (r i : Nat), r ≤ 10 → i < 16 →
    byteAt (subBytes s) i = sbox (byteAt s i) ∧ byteAt (addRoundKey s k) i = byteAt s i ^^^ byteAt k i ∧
    byteAt (roundKey rks r) i = byteAt rks (16 * r + i) ∧
    addRoundKey s (Vector.replicate 16 0) = s ∧ addRoundKey (addRoundKey s k) k = s

/-- `ShiftRows` moves the byte in column `(c + r) mod 4` of row `r` to column `c`, leaves row 0, leaves a State of four equal
columns, and is the identity after four times (R141). -/
def Obligations.ShiftRowsRotatesRows : Prop :=
  ∀ s : Block, (∀ r c, r < 4 → c < 4 → byteAt (shiftRows s) (r + 4 * c) = byteAt s (r + 4 * ((c + r) % 4))) ∧
    (∀ c, c < 4 → byteAt (shiftRows s) (4 * c) = byteAt s (4 * c)) ∧
    ((∀ r c, r < 4 → c < 4 → byteAt s (r + 4 * c) = byteAt s r) → shiftRows s = s) ∧
    shiftRows (shiftRows (shiftRows (shiftRows s))) = s

/-- `MixColumns` multiplies every column by the matrix of R142, from the column's old bytes; a column of four equal bytes
is unchanged. -/
def Obligations.MixColumnsMatrix : Prop :=
  ∀ (s : Block) (c : Nat), c < 4 →
    let x := fun k => byteAt s (4 * c + k)
    byteAt (mixColumns s) (4 * c) = multiply 2 (x 0) ^^^ multiply 3 (x 1) ^^^ multiply 1 (x 2) ^^^ multiply 1 (x 3) ∧
    byteAt (mixColumns s) (4 * c + 1) = multiply 1 (x 0) ^^^ multiply 2 (x 1) ^^^ multiply 3 (x 2) ^^^ multiply 1 (x 3) ∧
    byteAt (mixColumns s) (4 * c + 2) = multiply 1 (x 0) ^^^ multiply 1 (x 1) ^^^ multiply 2 (x 2) ^^^ multiply 3 (x 3) ∧
    byteAt (mixColumns s) (4 * c + 3) = multiply 3 (x 0) ^^^ multiply 1 (x 1) ^^^ multiply 1 (x 2) ^^^ multiply 2 (x 3) ∧
    ((∀ k, k < 4 → x k = x 0) → ∀ k, k < 4 → byteAt (mixColumns s) (4 * c + k) = x 0)

/-- `EncryptBlock` is the run of R144: the initial key addition, rounds 1..9 with MixColumns, round 10 without, with
round key `r` the bytes `RKS[16r..16r+15]` (R52, R146). -/
def Obligations.EncryptBlockRounds : Prop :=
  ∀ (rks : Schedule) (block : Block), ∃ st rk : Nat → Block,
    (∀ r i, r ≤ 10 → i < 16 → byteAt (rk r) i = byteAt rks (16 * r + i)) ∧
    st 0 = addRoundKey block (rk 0) ∧
    (∀ r, 1 ≤ r → r ≤ 9 → st r = addRoundKey (mixColumns (shiftRows (subBytes (st (r - 1))))) (rk r)) ∧
    st 10 = addRoundKey (shiftRows (subBytes (st 9))) (rk 10) ∧
    encryptBlock rks block = st 10

/-- `AES_ENC_BLOCK` (R150): with a schedule it completes with the 16 ciphertext bytes and changes no persistent register;
without one it is answered `SequenceError`. That the transient
registers it does not use keep their content is the model's choice (log 2): R38 gives them no value between commands. -/
def Obligations.AesEncBlockEncrypts : Prop :=
  ∀ (block : List Byte) (s : State), block.length = 16 →
    (s.rksValid = true → ∃ t, exec (.aesEncBlock block) s = .next t ∧
      t.response = some { status := .ok, payload := bytesOf (encryptBlock s.rks (toBlock block)) } ∧
      SamePersistent s t ∧ SameTrButCipher s t ∧ t.hostIn = s.hostIn) ∧
    (s.rksValid = false → exec (.aesEncBlock block) s =
      .next { s with response := some { status := .sequenceError, payload := [] } })

/-- `AES_ENC_ECB` (R151, R152): without a schedule it is answered `SequenceError` at every length; with one, at a length that
is no multiple of 16, `InvalidBlockLength` (code 0x02); neither changes a register. With a schedule and whole blocks it
completes, block `j` of the response is the encryption of block `j` of the payload, and no persistent register changes.
That the transient
registers it does not use keep their content is the model's choice (log 2): R38 gives them no value between commands. -/
def Obligations.AesEncEcbEncryptsEveryBlock : Prop :=
  ∀ (data : List Byte) (s : State),
    (s.rksValid = false → exec (.aesEncEcb data) s =
      .next { s with response := some { status := .sequenceError, payload := [] } }) ∧
    (s.rksValid = true → data.length % 16 ≠ 0 → exec (.aesEncEcb data) s =
      .next { s with response := some { status := .invalidBlockLength, payload := [] } }) ∧
    Status.code .invalidBlockLength = 0x02 ∧
    (s.rksValid = true → data.length % 16 = 0 →
      ∃ t r, exec (.aesEncEcb data) s = .next t ∧ t.response = some r ∧ r.status = .ok ∧
        r.payload.length = data.length ∧
        (∀ j, j < data.length / 16 → (r.payload.drop (16 * j)).take 16 =
          bytesOf (encryptBlock s.rks (toBlock ((data.drop (16 * j)).take 16)))) ∧
        SamePersistent s t ∧ SameTrButCipher s t ∧ t.hostIn = s.hostIn)

/-- `AES_ENC_ECB` with `LEN = 0`: `OK` with an empty response, or `SequenceError` without a schedule (R154). -/
def Obligations.EmptyEcbIsOk : Prop :=
  ∀ s : State,
    (s.rksValid = true → ∃ t, exec (.aesEncEcb []) s = .next t ∧
      t.response = some { status := .ok, payload := [] } ∧ SamePersistent s t) ∧
    (s.rksValid = false → exec (.aesEncEcb []) s =
      .next { s with response := some { status := .sequenceError, payload := [] } })

/-- ECB (R153): identical blocks, wherever they stand, give identical ciphertext blocks; the response to `X ‖ Y` is the
response to `X` followed by that to `Y`; and one block is answered as `AES_ENC_BLOCK` answers it. -/
def Obligations.EcbHasNoChaining : Prop :=
  ∀ s : State, s.rksValid = true →
    (∀ x : List Byte, x.length % 16 = 0 → ∃ t c, exec (.aesEncEcb x) s = .next t ∧ c.length = x.length ∧
      t.response = some { status := .ok, payload := c } ∧
      ∀ j k, j < x.length / 16 → k < x.length / 16 → (x.drop (16 * j)).take 16 = (x.drop (16 * k)).take 16 →
        (c.drop (16 * j)).take 16 = (c.drop (16 * k)).take 16) ∧
    (∀ x y : List Byte, x.length % 16 = 0 → y.length % 16 = 0 →
      ∃ tx ty txy cx cy, exec (.aesEncEcb x) s = .next tx ∧ tx.response = some { status := .ok, payload := cx } ∧
        exec (.aesEncEcb y) s = .next ty ∧ ty.response = some { status := .ok, payload := cy } ∧
        exec (.aesEncEcb (x ++ y)) s = .next txy ∧ txy.response = some { status := .ok, payload := cx ++ cy }) ∧
    (∀ x : List Byte, x.length = 16 → ∃ t u, exec (.aesEncEcb x) s = .next t ∧ exec (.aesEncBlock x) s = .next u ∧
      t.response = u.response)

/-! ### SHA-1 compression -/

/-- `RotL32` rotates toward the most significant end, and bits leaving bit 31 re-enter at bit 0 (R170). -/
def Obligations.RotL32MovesBits : Prop :=
  ∀ (x : Word) (n i : Nat), 0 < n → n < 32 → i < 32 →
    (rotL32 x n).getLsbD i = x.getLsbD ((i + 32 - n) % 32)

/-- The message schedule (R171, R172): 80 words, the first 16 big-endian from the block, the others by the recurrence. -/
def Obligations.MessageScheduleRecurrence : Prop :=
  ∀ block : Buffer,
    (messageSchedule block).length = 80 ∧
    (∀ i, i < 16 → (messageSchedule block).getD i 0 =
      be32 (byteAt block (4 * i)) (byteAt block (4 * i + 1)) (byteAt block (4 * i + 2)) (byteAt block (4 * i + 3))) ∧
    ∀ i, 16 ≤ i → i < 80 → (messageSchedule block).getD i 0 =
      rotL32 ((messageSchedule block).getD (i - 3) 0 ^^^ (messageSchedule block).getD (i - 8) 0 ^^^
        (messageSchedule block).getD (i - 14) 0 ^^^ (messageSchedule block).getD (i - 16) 0) 1

/-- `F(t, b, c, d)` and `K(t)` in the four ranges of rounds (R173, R174). -/
def Obligations.RoundFunctionAndConstant : Prop :=
  ∀ (t : Nat) (b c d : Word),
    (t ≤ 19 → sha1F t b c d = (b &&& c) ||| (~~~b &&& d) ∧ sha1K t = 0x5A827999) ∧
    (20 ≤ t → t ≤ 39 → sha1F t b c d = b ^^^ c ^^^ d ∧ sha1K t = 0x6ED9EBA1) ∧
    (40 ≤ t → t ≤ 59 → sha1F t b c d = (b &&& c) ||| (b &&& d) ||| (c &&& d) ∧ sha1K t = 0x8F1BBCDC) ∧
    (60 ≤ t → t ≤ 79 → sha1F t b c d = b ^^^ c ^^^ d ∧ sha1K t = 0xCA62C1D6)

/-- `Sha1Compress` (R175, R178, R180, R181): the working variables start from `H`, take 80 rounds with `W[t]`, and are added
into `H` modulo 2^32. -/
def Obligations.CompressRunsEightyRounds : Prop :=
  ∀ (h : Hash) (block : Buffer), ∃ v : Nat → WorkVars,
    v 0 = ⟨h.h0, h.h1, h.h2, h.h3, h.h4⟩ ∧
    (∀ t, t < 80 → v (t + 1) =
      ⟨rotL32 (v t).a 5 + sha1F t (v t).b (v t).c (v t).d + (v t).e + sha1K t + (messageSchedule block).getD t 0,
        (v t).a, rotL32 (v t).b 30, (v t).c, (v t).d⟩) ∧
    sha1Compress h block =
      ⟨h.h0 + (v 80).a, h.h1 + (v 80).b, h.h2 + (v 80).c, h.h3 + (v 80).d, h.h4 + (v 80).e⟩

/-! ### SHA-1 commands -/

/-- `SHA1_CREATE` completes in every state: `H` is the initial value, the buffer empty and zero, `MSGLEN` 0, phase
`Created`, an empty `OK` response, and no other persistent register changes (R200). That the transient
registers it does not use keep their content is the model's choice (log 2): R38 gives them no value between commands. -/
def Obligations.Sha1CreateStartsContext : Prop :=
  ∀ s : State, exec .sha1Create s = .next
    { s with
      h := ⟨0x67452301, 0xEFCDAB89, 0x98BADCFE, 0x10325476, 0xC3D2E1F0⟩
      buf := Vector.replicate 64 0
      buflen := 0
      msglen := 0
      phase := .created
      response := some { status := .ok, payload := [] } }

/-- `SHA1_ADD_DATA` (R201, R194, R195). Outside phase `Created` it is answered `SequenceError` and changes nothing. In phase
`Created` it completes in every state: an empty `OK` response, `MSGLEN` grows by `LEN`, the phase, the schedule and the
transient registers of the AES engines stay, and `LEN = 0` changes no register; it completes with `BUFLEN = 64` too, where no
run gets (log 11). With `BUFLEN < 64`, the buffered bytes and
the payload together are cut into 64-byte blocks, the whole ones are compressed in order and the rest is buffered; if a
block was compressed, `BUF` is zero after the rest, and if none was, `BUF` is as before with the bytes appended. That the transient
registers it does not use keep their content is the model's choice (log 2): R38 gives them no value between commands. -/
def Obligations.Sha1AddDataAbsorbs : Prop :=
  ∀ (data : List Byte) (s : State),
    (s.phase ≠ .created → exec (.sha1AddData data) s =
      .next { s with response := some { status := .sequenceError, payload := [] } }) ∧
    (s.phase = .created → ∃ t, exec (.sha1AddData data) s = .next t ∧
      t.response = some { status := .ok, payload := [] } ∧
      t.msglen = s.msglen + BitVec.ofNat 64 data.length ∧ t.phase = .created ∧
      SameAes s t ∧ SameTrButCompress s t ∧ t.hostIn = s.hostIn ∧
      (data = [] → t = { s with response := some { status := .ok, payload := [] } }) ∧
      (s.buflen.val < 64 →
        t.h = hashBlocks s.h (memRead s.buf 0 s.buflen.val ++ data) ∧
        t.buflen.val = (s.buflen.val + data.length) % 64 ∧
        (64 ≤ s.buflen.val + data.length → t.buf = paddedBuffer (leftover (memRead s.buf 0 s.buflen.val ++ data))) ∧
        (s.buflen.val + data.length < 64 → t.buf = memWrite s.buf s.buflen.val data)))

/-- Streaming equivalence (R206): for every split, the digest of the parts is the digest of the whole; and for any number of
parts, empty ones among them, the persistent registers after adding the parts are those after adding the whole. -/
def Obligations.StreamingEquivalence : Prop :=
  (∀ (s : State) (a b : List Byte), ∃ t u r,
    execAll [.sha1Create, .sha1AddData a, .sha1AddData b, .sha1Finalize, .sha1Digest] s = .next t ∧
    execAll [.sha1Create, .sha1AddData (a ++ b), .sha1Finalize, .sha1Digest] s = .next u ∧
    t.response = some r ∧ u.response = some r ∧ r.status = .ok ∧ r.payload.length = 20) ∧
  ∀ (s : State) (parts : List (List Byte)), s.phase = .created → s.buflen.val < 64 → ∃ t u,
    execAll (parts.map Instr.sha1AddData) s = .next t ∧ exec (.sha1AddData parts.flatten) s = .next u ∧
    SamePersistent t u

/-- `PaddingByteCount()` for every `BUFLEN` in 0..63 (R193): the table, the bound, and what it is for. -/
def Obligations.PaddingByteCountTable : Prop :=
  ∀ l : Nat, l < 64 →
    (l ≤ 55 → paddingByteCount l = 56 - l) ∧ (l = 56 → paddingByteCount l = 64) ∧
    (57 ≤ l → paddingByteCount l = 120 - l) ∧
    1 ≤ paddingByteCount l ∧ paddingByteCount l ≤ 64 ∧ (l + paddingByteCount l) % 64 = 56

/-- `SHA1_FINALIZE` (R202). Outside phase `Created` it is answered `SequenceError` and changes nothing. In phase `Created` it
completes in every state: an empty `OK` response, phase `Finalized`, `MSGLEN`, the schedule and the transient registers of
the AES engines unchanged. With `BUFLEN = L < 64`, what it compresses is the `L` buffered bytes, `0x80`, the zeros and the bit
length of the unpadded message modulo 2^64: one block for `L <= 55`, two for `L >= 56`; afterwards the buffer is empty and
zero. It completes with `BUFLEN = 64` too, where no run gets (log 11). That the transient
registers it does not use keep their content is the model's choice (log 2): R38 gives them no value between commands. -/
def Obligations.Sha1FinalizePads : Prop :=
  ∀ s : State,
    (s.phase ≠ .created → exec .sha1Finalize s =
      .next { s with response := some { status := .sequenceError, payload := [] } }) ∧
    (s.phase = .created → ∃ t, exec .sha1Finalize s = .next t ∧
      t.response = some { status := .ok, payload := [] } ∧
      t.phase = .finalized ∧ t.msglen = s.msglen ∧ SameAes s t ∧ SameTrButCompress s t ∧ t.hostIn = s.hostIn ∧
      (s.buflen.val < 64 → ∃ z : Nat,
        (s.buflen.val ≤ 55 → s.buflen.val + 1 + z + 8 = 64) ∧ (56 ≤ s.buflen.val → s.buflen.val + 1 + z + 8 = 128) ∧
        t.h = hashBlocks s.h (memRead s.buf 0 s.buflen.val ++ [0x80] ++ List.replicate z 0 ++ be64Bytes (8 * s.msglen)) ∧
        t.buflen = 0 ∧ t.buf = Vector.replicate 64 0))

/-- `SHA1_DIGEST` (R204): in phase `Finalized` it answers the 20 big-endian bytes of `H`, changes nothing, and answers the
same when repeated; in the other phases it is answered `SequenceError` and changes nothing. -/
def Obligations.Sha1DigestReadsHash : Prop :=
  ∀ s : State,
    (s.phase = .finalized →
      ∃ t p, p = be32Bytes s.h.h0 ++ be32Bytes s.h.h1 ++ be32Bytes s.h.h2 ++ be32Bytes s.h.h3 ++ be32Bytes s.h.h4 ∧
        p.length = 20 ∧ t = { s with response := some { status := .ok, payload := p } } ∧
        exec .sha1Digest s = .next t ∧ exec .sha1Digest t = .next t) ∧
    (s.phase ≠ .finalized → exec .sha1Digest s =
      .next { s with response := some { status := .sequenceError, payload := [] } })

/-- Which SHA-1 command is accepted in which phase, and the phase after it: the twelve entries of the table of R205. -/
def Obligations.PhaseTable : Prop :=
  ∀ s : State,
    (∃ t, exec .sha1Create s = .next t ∧ t.response = some { status := .ok, payload := [] } ∧ t.phase = .created ∧
      t.h = sha1Iv ∧ t.buflen = 0 ∧ t.msglen = 0) ∧
    (∀ data, s.phase = .created → ∃ t, exec (.sha1AddData data) s = .next t ∧
      t.response = some { status := .ok, payload := [] } ∧ t.phase = .created) ∧
    (∀ data, s.phase ≠ .created → exec (.sha1AddData data) s =
      .next { s with response := some { status := .sequenceError, payload := [] } }) ∧
    (s.phase = .created → ∃ t, exec .sha1Finalize s = .next t ∧
      t.response = some { status := .ok, payload := [] } ∧ t.phase = .finalized) ∧
    (s.phase ≠ .created → exec .sha1Finalize s =
      .next { s with response := some { status := .sequenceError, payload := [] } }) ∧
    (s.phase = .finalized → ∃ t r, exec .sha1Digest s = .next t ∧ t.response = some r ∧ r.status = .ok ∧
      t.phase = .finalized) ∧
    (s.phase ≠ .finalized → exec .sha1Digest s =
      .next { s with response := some { status := .sequenceError, payload := [] } })

/-- `SHA1_HASH` in closed form (R208, R212). Its commands are `SHA1_CREATE`, the data in one `SHA1_ADD_DATA`, or in several
where it is longer than `MAX_PAYLOAD`, `SHA1_FINALIZE`, `SHA1_DIGEST`, each a command that some frame spells, whatever
`MAX_PAYLOAD` is (a `MAX_PAYLOAD` of 0 carries no data). Where `sha1HashPayloads` cuts long data is the model's choice (log 13),
so the rest holds of every cut, that one among them (R206): from every state the commands complete, and the digest is the state
after compressing the blocks of the padded message `M ‖ 0x80 ‖ 0^z ‖ BE64bytes(8m)` from `IV`, with `z = (55 - m) mod 64`, the
least number of zeros that fills whole blocks, one less than the padding byte count; there are `floor((m + 8) / 64) + 1` blocks.
R208 says this for m < 2^61; for longer messages the length field wraps by the spec's decision D12 (R33, R202; log 8). -/
def Obligations.Sha1HashClosedForm : Prop :=
  ∀ (s : State) (maxPayload : Nat) (m : List Byte),
    sha1HashCommands maxPayload m =
      .sha1Create :: (sha1HashPayloads maxPayload m).map Instr.sha1AddData ++ [.sha1Finalize, .sha1Digest] ∧
    (sha1HashPayloads maxPayload m).flatten = m ∧
    (m.length ≤ maxPayload → sha1HashPayloads maxPayload m = [m]) ∧
    (0 < maxPayload ∨ m = [] → ∀ i ∈ sha1HashCommands maxPayload m, i.wellFormed maxPayload = true) ∧
    (∃ z : Nat, paddedMessage m = m ++ [0x80] ++ List.replicate z 0 ++ be64Bytes (8 * BitVec.ofNat 64 m.length) ∧
      (z + m.length) % 64 = 55 ∧ z < 64 ∧ paddingByteCount (m.length % 64) = z + 1) ∧
    (paddedMessage m).length = 64 * ((m.length + 8) / 64 + 1) ∧
    ∀ parts : List (List Byte), parts.flatten = m → ∃ t,
      execAll (.sha1Create :: parts.map Instr.sha1AddData ++ [.sha1Finalize, .sha1Digest]) s = .next t ∧
      t.response = some { status := .ok, payload := digestBytes (hashBlocks sha1Iv (paddedMessage m)) } ∧
      t.phase = .finalized ∧ SameAes s t

/-! ### The whole machine -/

/-- After a reset, the first or a later one, `RKS_VALID = 0` and `SHA_PHASE = None` (R240, R45), so every command that would
read an unspecified register is answered `SequenceError` (R242). The ports are empty, the model's own choice (log 4, log 5). -/
def Obligations.ResetControlState : Prop :=
  ∀ (s t : State) (maxPayload : Nat) (i : Instr), t = State.reset ∨ t = s.resetEvent →
    t.rksValid = false ∧ t.phase = .none ∧ t.hostIn = [] ∧ t.response = none ∧
    (i.wellFormed maxPayload = true → (∀ key, i ≠ .aesExpand key) → i ≠ .sha1Create →
      exec i t = .next { t with response := some { status := .sequenceError, payload := [] } })

/-- The invariant of the schedule and the context holds after every reset (R22, R34). -/
def Obligations.InvariantHoldsAtReset : Prop :=
  Inv State.reset ∧ ∀ s : State, Inv s.resetEvent

/-- Every step keeps the invariant: while `RKS_VALID` is 1, `RKS` is the expansion of some key (R22); in phase `Created` the
context holds exactly some message (R34); in phase `Finalized` `H` is the hash of some padded message (R202, R208). -/
def Obligations.EveryStepKeepsInvariant : Prop :=
  ∀ s t : State, Inv s → step s = .next t → Inv t

/-- `RKS_VALID` is set by a successful `AES_EXPAND` alone and never cleared (R22). -/
def Obligations.RksValidOnlyEverSet : Prop :=
  ∀ s t : State, step s = .next t →
    (s.rksValid = true → t.rksValid = true) ∧
    (s.rksValid = false → t.rksValid = true →
      ∃ key rest, decode s.hostIn = .ok (.aesExpand key, rest) ∧ key.length = 16)

/-- `SHA_PHASE` moves only to `Created` by `SHA1_CREATE` and from `Created` to `Finalized` by `SHA1_FINALIZE` (R35). -/
def Obligations.PhaseMovesOnlyByCreateAndFinalize : Prop :=
  ∀ s t : State, step s = .next t → t.phase ≠ s.phase →
    (t.phase = .created ∧ ∃ rest, decode s.hostIn = .ok (.sha1Create, rest)) ∨
    (s.phase = .created ∧ t.phase = .finalized ∧ ∃ rest, decode s.hostIn = .ok (.sha1Finalize, rest))

/-- Which command writes which register: the "writes on OK" column of R85. -/
def Obligations.RegisterWriters : Prop :=
  ∀ (i : Instr) (s t : State), exec i s = .next t →
    ((∀ key, i ≠ .aesExpand key) → SameAes s t) ∧
    (i ≠ .sha1Create → i ≠ .sha1Finalize → t.phase = s.phase) ∧
    (i ≠ .sha1Create → (∀ data, i ≠ .sha1AddData data) → t.msglen = s.msglen) ∧
    (i ≠ .sha1Create → (∀ data, i ≠ .sha1AddData data) → i ≠ .sha1Finalize →
      t.h = s.h ∧ t.buf = s.buf ∧ t.buflen = s.buflen)

/-- The AES commands and the SHA-1 commands touch disjoint state: interleaving changes neither result (R86). -/
def Obligations.AesAndShaDoNotInterfere : Prop :=
  ∀ (i j : Instr) (s : State), IsAes i → ¬ IsAes j →
    ∃ si sij sj sji, exec i s = .next si ∧ exec j si = .next sij ∧ exec j s = .next sj ∧ exec i sj = .next sji ∧
      SameSha s si ∧ SameAes s sj ∧ SamePersistent sij sji ∧ sji.response = si.response ∧ sij.response = sj.response

/-- No response depends on a register that reset leaves unspecified, or on a transient register: two states that differ at
most in registers guarded by `RKS_VALID = 0` or `SHA_PHASE = None`, in the transient registers and in the numbering of the
free values, step alike, answer alike, and differ in no more afterwards (R38, R45). -/
def Obligations.UnspecifiedStateIsInvisible : Prop :=
  ∀ s t s' : State, SameVisible s t → step s = .next s' → ∃ t', step t = .next t' ∧ SameVisible s' t'
end

