-- ==== Sys2Proof/Laws/Access.lean ====
section
/-! SUPPORT. The laws of the byte arrays: read after build, read after write, and the lengths of what is read (00_scope.md
R16). -/

namespace Sys2Proof.Machine

variable {n : Nat}

theorem toList_length (v : Vector Byte n) : v.toArray.toList.length = n := by simp

@[simp] theorem bytesOf_length (v : Vector Byte n) : (bytesOf v).length = n := by simp [bytesOf]

/-- Inside the array, `byteAt` is the element. -/
theorem byteAt_eq_getElem (v : Vector Byte n) (i : Nat) (hi : i < n) : byteAt v i = v[i] := by
  simp [byteAt, List.getD_eq_getElem?_getD, hi]

/-- Outside the array, `byteAt` is 0. -/
theorem byteAt_of_le (v : Vector Byte n) (i : Nat) (hi : n ≤ i) : byteAt v i = 0 := by
  simp [byteAt, List.getD_eq_getElem?_getD, hi]

/-- Two arrays with the same bytes are the same. -/
theorem ext_byteAt (v w : Vector Byte n) (h : ∀ i, i < n → byteAt v i = byteAt w i) : v = w := by
  apply Vector.ext
  intro i hi
  have := h i hi
  rwa [byteAt_eq_getElem v i hi, byteAt_eq_getElem w i hi] at this

theorem getElem_tabulate {α : Type} (f : Nat → α) (i : Nat) (hi : i < n) : (tabulate n f)[i] = f i := by
  simp [tabulate]

/-- Read after build. -/
theorem byteAt_tabulate (f : Nat → Byte) (i : Nat) (hi : i < n) : byteAt (tabulate n f) i = f i := by
  rw [byteAt_eq_getElem _ _ hi, getElem_tabulate]

theorem byteAt_replicate (b : Byte) (i : Nat) (hi : i < n) : byteAt (Vector.replicate n b) i = b := by
  rw [byteAt_eq_getElem _ _ hi, Vector.getElem_replicate]

theorem byteAt_set (v : Vector Byte n) (a : Nat) (b : Byte) (i : Nat) :
    byteAt (v.setIfInBounds a b) i = if i = a ∧ i < n then b else byteAt v i := by
  by_cases hi : i < n
  · rw [byteAt_eq_getElem _ _ hi, byteAt_eq_getElem _ _ hi, Vector.getElem_setIfInBounds]
    by_cases h : a = i
    · simp [h, hi]
    · have h' : ¬ i = a := fun e => h e.symm
      simp [h, h']
  · rw [byteAt_of_le _ _ (by omega), byteAt_of_le _ _ (by omega)]
    simp [hi]

/-- Read after write, at every index. -/
theorem byteAt_memWrite (bytes : List Byte) : ∀ (v : Vector Byte n) (a i : Nat),
    byteAt (memWrite v a bytes) i =
      if a ≤ i ∧ i < a + bytes.length ∧ i < n then bytes.getD (i - a) 0 else byteAt v i := by
  induction bytes with
  | nil =>
    intro v a i
    rw [memWrite, if_neg (by simp only [List.length_nil]; omega)]
  | cons b bs ih =>
    intro v a i
    rw [memWrite, ih, byteAt_set]
    simp only [List.length_cons]
    by_cases h1 : i = a
    · subst h1
      by_cases h2 : i < n
      · rw [if_neg (by omega), if_pos ⟨rfl, h2⟩, if_pos ⟨by omega, by omega, h2⟩]
        simp
      · rw [if_neg (by omega), if_neg (by omega), if_neg (by omega)]
    · by_cases h2 : a + 1 ≤ i ∧ i < a + 1 + bs.length ∧ i < n
      · rw [if_pos h2, if_pos ⟨by omega, by omega, h2.2.2⟩]
        rw [show i - a = (i - (a + 1)) + 1 by omega]
        simp
      · rw [if_neg h2, if_neg (by omega), if_neg (by omega)]

/-- A write leaves every byte outside it alone. -/
theorem byteAt_memWrite_of_outside (v : Vector Byte n) (a i : Nat) (bytes : List Byte)
    (h : i < a ∨ a + bytes.length ≤ i) : byteAt (memWrite v a bytes) i = byteAt v i := by
  rw [byteAt_memWrite, if_neg (by omega)]

theorem memRead_length (v : Vector Byte n) (a k : Nat) (h : a + k ≤ n) : (memRead v a k).length = k := by
  simp [memRead]; omega

theorem getD_memRead (v : Vector Byte n) (a k i : Nat) (h : i < k) : (memRead v a k).getD i 0 = byteAt v (a + i) := by
  simp [memRead, byteAt, List.getD_eq_getElem?_getD, h]

theorem byteAt_toBlock (bytes : List Byte) (i : Nat) (hi : i < 16) : byteAt (toBlock bytes) i = bytes.getD i 0 :=
  byteAt_tabulate _ _ hi

theorem byteAt_toBuffer (bytes : List Byte) (i : Nat) (hi : i < 64) : byteAt (toBuffer bytes) i = bytes.getD i 0 :=
  byteAt_tabulate _ _ hi

theorem bytesOf_getD (v : Vector Byte n) (i : Nat) : (bytesOf v).getD i 0 = byteAt v i := rfl

/-- Byte sequences of one length with the same bytes are the same. -/
theorem ext_getD (a b : List Byte) (hl : a.length = b.length)
    (h : ∀ i, i < a.length → a.getD i 0 = b.getD i 0) : a = b := by
  apply List.ext_getElem hl
  intro i h1 h2
  have := h i h1
  simpa [List.getD_eq_getElem?_getD, h1, h2] using this

/-- The bytes of the block of a 16-byte sequence are that sequence. -/
theorem bytesOf_toBlock (bytes : List Byte) (h : bytes.length = 16) : bytesOf (toBlock bytes) = bytes := by
  apply ext_getD _ _ (by simp [h])
  intro i hi
  rw [bytesOf_getD, byteAt_toBlock _ _ (by simpa using hi)]

theorem toBlock_bytesOf (b : Block) : toBlock (bytesOf b) = b := by
  apply ext_byteAt
  intro i hi
  rw [byteAt_toBlock _ _ hi, bytesOf_getD]

theorem wordAt_congr (v : Vector Byte n) {m : Nat} (w : Vector Byte m) (p q : Nat)
    (h : ∀ j, j < 4 → byteAt v (p + j) = byteAt w (q + j)) : wordAt v p = wordAt w q := by
  have h0 := h 0 (by omega)
  have h1 := h 1 (by omega)
  have h2 := h 2 (by omega)
  have h3 := h 3 (by omega)
  simp only [Nat.add_zero] at h0
  simp [wordAt, h0, h1, h2, h3]

/-- An AES word written to an array is read back. -/
theorem wordAt_memWrite_same (v : Vector Byte n) (p : Nat) (x : AesWord) (h : p + 4 ≤ n) :
    wordAt (memWrite v p (wordBytes x)) p = x := by
  have e : ∀ j, j < 4 → byteAt (memWrite v p (wordBytes x)) (p + j) = (wordBytes x).getD j 0 := by
    intro j hj
    rw [byteAt_memWrite, if_pos ⟨by omega, by simp [wordBytes]; omega, by omega⟩]
    simp
  have e0 : byteAt (memWrite v p (wordBytes x)) p = x.b0 := e 0 (by omega)
  rw [wordAt, e0, e 1 (by omega), e 2 (by omega), e 3 (by omega)]
  rfl

/-- Writing an AES word leaves every word that does not overlap it alone. -/
theorem wordAt_memWrite_other (v : Vector Byte n) (p q : Nat) (x : AesWord) (h : q + 4 ≤ p ∨ p + 4 ≤ q) :
    wordAt (memWrite v p (wordBytes x)) q = wordAt v q := by
  apply wordAt_congr
  intro j hj
  rw [byteAt_memWrite_of_outside]
  simp only [wordBytes, List.length_cons, List.length_nil]
  omega

/-- A write behind a write is one write. -/
theorem memWrite_memWrite (v : Vector Byte n) (a : Nat) (x y : List Byte) :
    memWrite (memWrite v a x) (a + x.length) y = memWrite v a (x ++ y) := by
  induction x generalizing v a with
  | nil => rfl
  | cons b x ih =>
    rw [List.cons_append, memWrite, memWrite, ← ih, List.length_cons]
    congr 1
    omega

end Sys2Proof.Machine
end

