-- ==== Sys2Proof/Laws/Blocks.lean ====
section
/-! SUPPORT. The laws of cutting a byte sequence into 64-byte blocks (10_state.md R34, 44_sha1_engine.md R194). -/

namespace Sys2Proof.Machine

theorem leftover_length (m : List Byte) : (leftover m).length = m.length % 64 := by
  simp only [leftover, List.length_drop]
  omega

theorem leftover_of_lt (m : List Byte) (h : m.length < 64) : leftover m = m := by
  simp [leftover, Nat.div_eq_of_lt h]

/-- Appending bytes that complete no block only lengthens the rest. -/
theorem leftover_append_lt (m c : List Byte) (h : m.length % 64 + c.length < 64) :
    leftover (m ++ c) = leftover m ++ c := by
  have hd : (m ++ c).length / 64 = m.length / 64 := by simp only [List.length_append]; omega
  rw [leftover, hd, leftover, List.drop_append_of_le_length (by omega)]

/-- Appending bytes that complete exactly one block leaves no rest. -/
theorem leftover_append_full (m c : List Byte) (h : m.length % 64 + c.length = 64) : leftover (m ++ c) = [] := by
  apply List.eq_nil_of_length_eq_zero
  rw [leftover_length, List.length_append]
  omega

/-- The block of index `j` of a sequence is not changed by what is appended after it. -/
theorem block_append (m c : List Byte) (j : Nat) (h : 64 * (j + 1) ≤ m.length) :
    ((m ++ c).drop (64 * j)).take 64 = (m.drop (64 * j)).take 64 := by
  rw [List.drop_append_of_le_length (by omega), List.take_append_of_le_length]
  simp only [List.length_drop]
  omega

theorem foldl_range_congr {α : Type} (f g : α → Nat → α) (n : Nat) (a : α)
    (h : ∀ x j, j < n → f x j = g x j) : (List.range n).foldl f a = (List.range n).foldl g a := by
  apply List.foldl_ext
  intro x j hj
  exact h x j (List.mem_range.1 hj)

theorem hashBlocks_of_lt (h : Hash) (m : List Byte) (hl : m.length < 64) : hashBlocks h m = h := by
  simp [hashBlocks, Nat.div_eq_of_lt hl]

/-- Appending bytes that complete no block leaves the hash state. -/
theorem hashBlocks_append_lt (h : Hash) (m c : List Byte) (hl : m.length % 64 + c.length < 64) :
    hashBlocks h (m ++ c) = hashBlocks h m := by
  have hd : (m ++ c).length / 64 = m.length / 64 := by simp only [List.length_append]; omega
  rw [hashBlocks, hd, hashBlocks]
  apply foldl_range_congr
  intro x j hj
  rw [block_append]
  have := Nat.div_add_mod m.length 64
  have : j + 1 ≤ m.length / 64 := hj
  omega

/-- Appending bytes that complete exactly one block compresses that block. -/
theorem hashBlocks_append_full (h : Hash) (m c : List Byte) (hl : m.length % 64 + c.length = 64) :
    hashBlocks h (m ++ c) = sha1Compress (hashBlocks h m) (toBuffer (leftover m ++ c)) := by
  have hd : (m ++ c).length / 64 = m.length / 64 + 1 := by simp only [List.length_append]; omega
  rw [hashBlocks, hd, List.range_succ, List.foldl_append]
  have e : (List.range (m.length / 64)).foldl
      (fun h j => sha1Compress h (toBuffer (((m ++ c).drop (64 * j)).take 64))) h = hashBlocks h m := by
    rw [hashBlocks]
    apply foldl_range_congr
    intro x j hj
    rw [block_append]
    have := Nat.div_add_mod m.length 64
    have : j + 1 ≤ m.length / 64 := hj
    omega
  rw [e]
  have hb : ((m ++ c).drop (64 * (m.length / 64))).take 64 = leftover m ++ c := by
    rw [List.drop_append_of_le_length (by omega)]
    apply List.take_of_length_le
    have := leftover_length m
    simp only [leftover] at this
    rw [List.length_append, this]
    omega
  simp [hb]

/-- Whole blocks before a sequence are compressed first. -/
theorem hashBlocks_append_whole (h : Hash) (a b : List Byte) (ha : a.length % 64 = 0) :
    hashBlocks h (a ++ b) = hashBlocks (hashBlocks h a) b := by
  have hd : (a ++ b).length / 64 = a.length / 64 + b.length / 64 := by simp only [List.length_append]; omega
  rw [hashBlocks, hd, List.range_add, List.foldl_append, List.foldl_map]
  have e : (List.range (a.length / 64)).foldl
      (fun h j => sha1Compress h (toBuffer (((a ++ b).drop (64 * j)).take 64))) h = hashBlocks h a := by
    rw [hashBlocks]
    apply foldl_range_congr
    intro x j hj
    rw [block_append]
    have := Nat.div_add_mod a.length 64
    have : j + 1 ≤ a.length / 64 := hj
    omega
  rw [e, hashBlocks]
  apply foldl_range_congr
  intro x j _
  have hdrop : (a ++ b).drop (64 * (a.length / 64 + j)) = b.drop (64 * j) := by
    rw [List.drop_append, List.drop_eq_nil_of_le (by omega), List.nil_append]
    congr 1
    omega
  rw [hdrop]

/-- A sequence is its whole blocks and its rest. -/
theorem whole_append_leftover (m : List Byte) : m.take (64 * (m.length / 64)) ++ leftover m = m :=
  List.take_append_drop _ _

theorem hashBlocks_whole (h : Hash) (m : List Byte) : hashBlocks h (m.take (64 * (m.length / 64))) = hashBlocks h m := by
  have hlen : (m.take (64 * (m.length / 64))).length % 64 = 0 := by
    rw [List.length_take]
    omega
  have hr : (leftover m).length < 64 := by
    rw [leftover_length]
    omega
  rw [← hashBlocks_of_lt (hashBlocks h (m.take (64 * (m.length / 64)))) (leftover m) hr,
    ← hashBlocks_append_whole h _ _ hlen, whole_append_leftover]

/-- Hashing on from the state after `m` with its rest is hashing `m` and what follows. -/
theorem hashBlocks_leftover_append (h : Hash) (m c : List Byte) :
    hashBlocks (hashBlocks h m) (leftover m ++ c) = hashBlocks h (m ++ c) := by
  have hlen : (m.take (64 * (m.length / 64))).length % 64 = 0 := by
    rw [List.length_take]
    omega
  rw [← hashBlocks_whole h m, ← hashBlocks_append_whole h _ _ hlen, ← List.append_assoc, whole_append_leftover]

/-- The rest after `m` and what follows it is the rest of the two together. -/
theorem leftover_leftover_append (m c : List Byte) : leftover (leftover m ++ c) = leftover (m ++ c) := by
  have hm := leftover_length m
  have hw : (m.take (64 * (m.length / 64))).length = 64 * (m.length / 64) := by
    rw [List.length_take]
    omega
  have h2 : m ++ c = m.take (64 * (m.length / 64)) ++ (leftover m ++ c) := by
    rw [← List.append_assoc, whole_append_leftover]
  have h3 : 64 * ((m ++ c).length / 64) = 64 * (m.length / 64) + 64 * ((leftover m ++ c).length / 64) := by
    rw [List.length_append, List.length_append, hm]
    omega
  rw [leftover, leftover.eq_def (m ++ c), h3]
  conv_rhs => rw [h2, List.drop_append, List.drop_eq_nil_of_le (by omega), List.nil_append, hw, Nat.add_sub_cancel_left]

/-! ### The buffer -/

/-- What is read back after bytes were written behind others. -/
theorem memRead_memWrite (buf : Buffer) (l : Nat) (c : List Byte) (h : l + c.length ≤ 64) :
    memRead (memWrite buf l c) 0 (l + c.length) = memRead buf 0 l ++ c := by
  have h1 := memRead_length (memWrite buf l c) 0 (l + c.length) (by omega)
  have h2 := memRead_length buf 0 l (by omega)
  apply ext_getD _ _ (by rw [h1, List.length_append, h2])
  intro i hi
  rw [h1] at hi
  rw [getD_memRead _ _ _ _ hi, byteAt_memWrite, Nat.zero_add]
  by_cases hil : i < l
  · rw [if_neg (by omega), List.getD_append _ _ _ _ (by omega), getD_memRead _ _ _ _ hil, Nat.zero_add]
  · rw [if_pos ⟨by omega, hi, by omega⟩, List.getD_append_right _ _ _ _ (by omega), h2]

/-- The whole buffer as the block it holds. -/
theorem toBuffer_memRead (buf : Buffer) : toBuffer (memRead buf 0 64) = buf := by
  apply ext_byteAt
  intro i hi
  rw [byteAt_toBuffer _ _ hi, getD_memRead _ _ _ _ hi, Nat.zero_add]

theorem toBuffer_nil : toBuffer [] = Vector.replicate 64 0 := by
  apply ext_byteAt
  intro i hi
  rw [byteAt_toBuffer _ _ hi, byteAt_replicate _ _ hi]
  rfl

/-- Bytes written behind others in a buffer that is zero after them. -/
theorem memWrite_toBuffer (p c : List Byte) :
    memWrite (toBuffer p) p.length c = toBuffer (p ++ c) := by
  apply ext_byteAt
  intro i hi
  rw [byteAt_memWrite, byteAt_toBuffer _ _ hi, byteAt_toBuffer _ _ hi]
  by_cases hip : i < p.length
  · rw [if_neg (by omega), List.getD_append _ _ _ _ hip]
  · rw [List.getD_append_right _ _ _ _ (by omega)]
    by_cases hic : i < p.length + c.length
    · rw [if_pos ⟨by omega, hic, hi⟩]
    · rw [if_neg (by omega)]
      simp only [List.getD_eq_getElem?_getD]
      rw [List.getElem?_eq_none (by omega), List.getElem?_eq_none (by omega)]

/-- The first bytes of the buffer of a sequence are the sequence. -/
theorem memRead_toBuffer (p : List Byte) (h : p.length ≤ 64) : memRead (toBuffer p) 0 p.length = p := by
  have h1 := memRead_length (toBuffer p) 0 p.length (by omega)
  apply ext_getD _ _ h1
  intro i hi
  rw [h1] at hi
  rw [getD_memRead _ _ _ _ hi, Nat.zero_add, byteAt_toBuffer _ _ (by omega)]

end Sys2Proof.Machine
end

