-- ==== Sys2Proof/Laws/State.lean ====
section
/-! SUPPORT. One lemma per field per update of State, true by rfl, so that no later proof unfolds a record update. -/

namespace Sys2Proof.Machine

variable (s : State)

/-! ### setResponse (R72) -/

@[simp] theorem setResponse_rks (r : Response) : (s.setResponse r).rks = s.rks := rfl
@[simp] theorem setResponse_rksValid (r : Response) : (s.setResponse r).rksValid = s.rksValid := rfl
@[simp] theorem setResponse_h (r : Response) : (s.setResponse r).h = s.h := rfl
@[simp] theorem setResponse_buf (r : Response) : (s.setResponse r).buf = s.buf := rfl
@[simp] theorem setResponse_buflen (r : Response) : (s.setResponse r).buflen = s.buflen := rfl
@[simp] theorem setResponse_msglen (r : Response) : (s.setResponse r).msglen = s.msglen := rfl
@[simp] theorem setResponse_phase (r : Response) : (s.setResponse r).phase = s.phase := rfl
@[simp] theorem setResponse_tr (r : Response) : (s.setResponse r).tr = s.tr := rfl
@[simp] theorem setResponse_freeCount (r : Response) : (s.setResponse r).freeCount = s.freeCount := rfl
@[simp] theorem setResponse_hostIn (r : Response) : (s.setResponse r).hostIn = s.hostIn := rfl
@[simp] theorem setResponse_response (r : Response) : (s.setResponse r).response = some r := rfl

/-! ### setHash (R30) -/

@[simp] theorem setHash_rks (h : Hash) : (s.setHash h).rks = s.rks := rfl
@[simp] theorem setHash_rksValid (h : Hash) : (s.setHash h).rksValid = s.rksValid := rfl
@[simp] theorem setHash_h (h : Hash) : (s.setHash h).h = h := rfl
@[simp] theorem setHash_buf (h : Hash) : (s.setHash h).buf = s.buf := rfl
@[simp] theorem setHash_buflen (h : Hash) : (s.setHash h).buflen = s.buflen := rfl
@[simp] theorem setHash_msglen (h : Hash) : (s.setHash h).msglen = s.msglen := rfl
@[simp] theorem setHash_phase (h : Hash) : (s.setHash h).phase = s.phase := rfl
@[simp] theorem setHash_tr (h : Hash) : (s.setHash h).tr = s.tr := rfl
@[simp] theorem setHash_freeCount (h : Hash) : (s.setHash h).freeCount = s.freeCount := rfl
@[simp] theorem setHash_hostIn (h : Hash) : (s.setHash h).hostIn = s.hostIn := rfl
@[simp] theorem setHash_response (h : Hash) : (s.setHash h).response = s.response := rfl

/-! ### setBuffer (R31 to R33) -/

@[simp] theorem setBuffer_rks (b : Buffer) (l : Fin 65) (m : BitVec 64) : (s.setBuffer b l m).rks = s.rks := rfl
@[simp] theorem setBuffer_rksValid (b : Buffer) (l : Fin 65) (m : BitVec 64) : (s.setBuffer b l m).rksValid =
    s.rksValid := rfl
@[simp] theorem setBuffer_h (b : Buffer) (l : Fin 65) (m : BitVec 64) : (s.setBuffer b l m).h = s.h := rfl
@[simp] theorem setBuffer_buf (b : Buffer) (l : Fin 65) (m : BitVec 64) : (s.setBuffer b l m).buf = b := rfl
@[simp] theorem setBuffer_buflen (b : Buffer) (l : Fin 65) (m : BitVec 64) : (s.setBuffer b l m).buflen = l := rfl
@[simp] theorem setBuffer_msglen (b : Buffer) (l : Fin 65) (m : BitVec 64) : (s.setBuffer b l m).msglen = m := rfl
@[simp] theorem setBuffer_phase (b : Buffer) (l : Fin 65) (m : BitVec 64) : (s.setBuffer b l m).phase = s.phase := rfl
@[simp] theorem setBuffer_tr (b : Buffer) (l : Fin 65) (m : BitVec 64) : (s.setBuffer b l m).tr = s.tr := rfl
@[simp] theorem setBuffer_freeCount (b : Buffer) (l : Fin 65) (m : BitVec 64) : (s.setBuffer b l m).freeCount =
    s.freeCount := rfl
@[simp] theorem setBuffer_hostIn (b : Buffer) (l : Fin 65) (m : BitVec 64) : (s.setBuffer b l m).hostIn =
    s.hostIn := rfl
@[simp] theorem setBuffer_response (b : Buffer) (l : Fin 65) (m : BitVec 64) : (s.setBuffer b l m).response =
    s.response := rfl

/-! ### setPhase (R35) -/

@[simp] theorem setPhase_rks (p : ShaPhase) : (s.setPhase p).rks = s.rks := rfl
@[simp] theorem setPhase_rksValid (p : ShaPhase) : (s.setPhase p).rksValid = s.rksValid := rfl
@[simp] theorem setPhase_h (p : ShaPhase) : (s.setPhase p).h = s.h := rfl
@[simp] theorem setPhase_buf (p : ShaPhase) : (s.setPhase p).buf = s.buf := rfl
@[simp] theorem setPhase_buflen (p : ShaPhase) : (s.setPhase p).buflen = s.buflen := rfl
@[simp] theorem setPhase_msglen (p : ShaPhase) : (s.setPhase p).msglen = s.msglen := rfl
@[simp] theorem setPhase_phase (p : ShaPhase) : (s.setPhase p).phase = p := rfl
@[simp] theorem setPhase_tr (p : ShaPhase) : (s.setPhase p).tr = s.tr := rfl
@[simp] theorem setPhase_freeCount (p : ShaPhase) : (s.setPhase p).freeCount = s.freeCount := rfl
@[simp] theorem setPhase_hostIn (p : ShaPhase) : (s.setPhase p).hostIn = s.hostIn := rfl
@[simp] theorem setPhase_response (p : ShaPhase) : (s.setPhase p).response = s.response := rfl

/-! ### dropKeyRegs (R38) -/

@[simp] theorem dropKeyRegs_rks : s.dropKeyRegs.rks = s.rks := rfl
@[simp] theorem dropKeyRegs_rksValid : s.dropKeyRegs.rksValid = s.rksValid := rfl
@[simp] theorem dropKeyRegs_h : s.dropKeyRegs.h = s.h := rfl
@[simp] theorem dropKeyRegs_buf : s.dropKeyRegs.buf = s.buf := rfl
@[simp] theorem dropKeyRegs_buflen : s.dropKeyRegs.buflen = s.buflen := rfl
@[simp] theorem dropKeyRegs_msglen : s.dropKeyRegs.msglen = s.msglen := rfl
@[simp] theorem dropKeyRegs_phase : s.dropKeyRegs.phase = s.phase := rfl
@[simp] theorem dropKeyRegs_tr : s.dropKeyRegs.tr =
    { s.tr with ksP := Config.freeKsP s.freeCount, ksRi := Config.freeKsRi s.freeCount } := rfl
@[simp] theorem dropKeyRegs_freeCount : s.dropKeyRegs.freeCount = s.freeCount + 1 := rfl
@[simp] theorem dropKeyRegs_hostIn : s.dropKeyRegs.hostIn = s.hostIn := rfl
@[simp] theorem dropKeyRegs_response : s.dropKeyRegs.response = s.response := rfl

/-! ### dropCipherRegs (R38) -/

@[simp] theorem dropCipherRegs_rks : s.dropCipherRegs.rks = s.rks := rfl
@[simp] theorem dropCipherRegs_rksValid : s.dropCipherRegs.rksValid = s.rksValid := rfl
@[simp] theorem dropCipherRegs_h : s.dropCipherRegs.h = s.h := rfl
@[simp] theorem dropCipherRegs_buf : s.dropCipherRegs.buf = s.buf := rfl
@[simp] theorem dropCipherRegs_buflen : s.dropCipherRegs.buflen = s.buflen := rfl
@[simp] theorem dropCipherRegs_msglen : s.dropCipherRegs.msglen = s.msglen := rfl
@[simp] theorem dropCipherRegs_phase : s.dropCipherRegs.phase = s.phase := rfl
@[simp] theorem dropCipherRegs_tr : s.dropCipherRegs.tr =
    { s.tr with st := Config.freeSt s.freeCount, rnd := Config.freeRnd s.freeCount } := rfl
@[simp] theorem dropCipherRegs_freeCount : s.dropCipherRegs.freeCount = s.freeCount + 1 := rfl
@[simp] theorem dropCipherRegs_hostIn : s.dropCipherRegs.hostIn = s.hostIn := rfl
@[simp] theorem dropCipherRegs_response : s.dropCipherRegs.response = s.response := rfl

/-! ### dropCompressRegs (R184) -/

@[simp] theorem dropCompressRegs_rks : s.dropCompressRegs.rks = s.rks := rfl
@[simp] theorem dropCompressRegs_rksValid : s.dropCompressRegs.rksValid = s.rksValid := rfl
@[simp] theorem dropCompressRegs_h : s.dropCompressRegs.h = s.h := rfl
@[simp] theorem dropCompressRegs_buf : s.dropCompressRegs.buf = s.buf := rfl
@[simp] theorem dropCompressRegs_buflen : s.dropCompressRegs.buflen = s.buflen := rfl
@[simp] theorem dropCompressRegs_msglen : s.dropCompressRegs.msglen = s.msglen := rfl
@[simp] theorem dropCompressRegs_phase : s.dropCompressRegs.phase = s.phase := rfl
@[simp] theorem dropCompressRegs_tr : s.dropCompressRegs.tr =
    { s.tr with w := Config.freeW s.freeCount, vars := Config.freeVars s.freeCount, t := Config.freeT s.freeCount } := rfl
@[simp] theorem dropCompressRegs_freeCount : s.dropCompressRegs.freeCount = s.freeCount + 1 := rfl
@[simp] theorem dropCompressRegs_hostIn : s.dropCompressRegs.hostIn = s.hostIn := rfl
@[simp] theorem dropCompressRegs_response : s.dropCompressRegs.response = s.response := rfl

/-! ### latchSchedule (R130) -/

@[simp] theorem latchSchedule_rks (k : Schedule) : (s.latchSchedule k).rks = k := rfl
@[simp] theorem latchSchedule_rksValid (k : Schedule) : (s.latchSchedule k).rksValid = true := rfl
@[simp] theorem latchSchedule_h (k : Schedule) : (s.latchSchedule k).h = s.h := rfl
@[simp] theorem latchSchedule_buf (k : Schedule) : (s.latchSchedule k).buf = s.buf := rfl
@[simp] theorem latchSchedule_buflen (k : Schedule) : (s.latchSchedule k).buflen = s.buflen := rfl
@[simp] theorem latchSchedule_msglen (k : Schedule) : (s.latchSchedule k).msglen = s.msglen := rfl
@[simp] theorem latchSchedule_phase (k : Schedule) : (s.latchSchedule k).phase = s.phase := rfl
@[simp] theorem latchSchedule_tr (k : Schedule) : (s.latchSchedule k).tr = s.dropKeyRegs.tr := rfl
@[simp] theorem latchSchedule_freeCount (k : Schedule) : (s.latchSchedule k).freeCount = s.freeCount + 1 := rfl
@[simp] theorem latchSchedule_hostIn (k : Schedule) : (s.latchSchedule k).hostIn = s.hostIn := rfl
@[simp] theorem latchSchedule_response (k : Schedule) : (s.latchSchedule k).response = s.response := rfl

/-! ### resetBuffer (R192) -/

@[simp] theorem resetBuffer_rks : s.resetBuffer.rks = s.rks := rfl
@[simp] theorem resetBuffer_rksValid : s.resetBuffer.rksValid = s.rksValid := rfl
@[simp] theorem resetBuffer_h : s.resetBuffer.h = s.h := rfl
@[simp] theorem resetBuffer_buf : s.resetBuffer.buf = Vector.replicate 64 0 := rfl
@[simp] theorem resetBuffer_buflen : s.resetBuffer.buflen = 0 := rfl
@[simp] theorem resetBuffer_msglen : s.resetBuffer.msglen = s.msglen := rfl
@[simp] theorem resetBuffer_phase : s.resetBuffer.phase = s.phase := rfl
@[simp] theorem resetBuffer_tr : s.resetBuffer.tr = s.tr := rfl
@[simp] theorem resetBuffer_freeCount : s.resetBuffer.freeCount = s.freeCount := rfl
@[simp] theorem resetBuffer_hostIn : s.resetBuffer.hostIn = s.hostIn := rfl
@[simp] theorem resetBuffer_response : s.resetBuffer.response = s.response := rfl

/-! ### compressBuffer (R195) -/

@[simp] theorem compressBuffer_rks : s.compressBuffer.rks =
    s.rks := by
  simp only [State.compressBuffer, resetBuffer_rks, setHash_rks, dropCompressRegs_rks]
@[simp] theorem compressBuffer_rksValid : s.compressBuffer.rksValid =
    s.rksValid := by
  simp only [State.compressBuffer, resetBuffer_rksValid, setHash_rksValid, dropCompressRegs_rksValid]
@[simp] theorem compressBuffer_h : s.compressBuffer.h =
    sha1Compress s.h s.buf := by
  simp only [State.compressBuffer, resetBuffer_h, setHash_h]
@[simp] theorem compressBuffer_buf : s.compressBuffer.buf =
    Vector.replicate 64 0 := by
  simp only [State.compressBuffer, resetBuffer_buf]
@[simp] theorem compressBuffer_buflen : s.compressBuffer.buflen =
    0 := by
  simp only [State.compressBuffer, resetBuffer_buflen]
@[simp] theorem compressBuffer_msglen : s.compressBuffer.msglen =
    s.msglen := by
  simp only [State.compressBuffer, resetBuffer_msglen, setHash_msglen, dropCompressRegs_msglen]
@[simp] theorem compressBuffer_phase : s.compressBuffer.phase =
    s.phase := by
  simp only [State.compressBuffer, resetBuffer_phase, setHash_phase, dropCompressRegs_phase]
@[simp] theorem compressBuffer_tr : s.compressBuffer.tr =
    s.dropCompressRegs.tr := by
  simp only [State.compressBuffer, resetBuffer_tr, setHash_tr]
@[simp] theorem compressBuffer_freeCount : s.compressBuffer.freeCount =
    s.freeCount + 1 := by
  simp only [State.compressBuffer, resetBuffer_freeCount, setHash_freeCount, dropCompressRegs_freeCount]
@[simp] theorem compressBuffer_hostIn : s.compressBuffer.hostIn =
    s.hostIn := by
  simp only [State.compressBuffer, resetBuffer_hostIn, setHash_hostIn, dropCompressRegs_hostIn]
@[simp] theorem compressBuffer_response : s.compressBuffer.response =
    s.response := by
  simp only [State.compressBuffer, resetBuffer_response, setHash_response, dropCompressRegs_response]

/-! ### createContext (R200) -/

@[simp] theorem createContext_rks : s.createContext.rks = s.rks := rfl
@[simp] theorem createContext_rksValid : s.createContext.rksValid = s.rksValid := rfl
@[simp] theorem createContext_h : s.createContext.h = sha1Iv := rfl
@[simp] theorem createContext_buf : s.createContext.buf = Vector.replicate 64 0 := rfl
@[simp] theorem createContext_buflen : s.createContext.buflen = 0 := rfl
@[simp] theorem createContext_msglen : s.createContext.msglen = 0 := rfl
@[simp] theorem createContext_phase : s.createContext.phase = .created := rfl
@[simp] theorem createContext_tr : s.createContext.tr = s.tr := rfl
@[simp] theorem createContext_freeCount : s.createContext.freeCount = s.freeCount := rfl
@[simp] theorem createContext_hostIn : s.createContext.hostIn = s.hostIn := rfl
@[simp] theorem createContext_response : s.createContext.response = s.response := rfl

/-! ### The answers -/

theorem respond_eq (p : List Byte) : s.respond p = .next (s.setResponse { status := .ok, payload := p }) := rfl

theorem raise_eq (e : Status) : s.raise e = .next (s.setResponse { status := e, payload := [] }) := rfl

theorem hasSchedule_eq : s.hasSchedule = s.rksValid := rfl

theorem acceptsData_iff : s.acceptsData = true ↔ s.phase = .created := by
  simp [State.acceptsData]

theorem hasDigest_iff : s.hasDigest = true ↔ s.phase = .finalized := by
  simp [State.hasDigest]

end Sys2Proof.Machine
end

