-- ==== Sys2Proof/Laws/Absorb.lean ====
section
/-! SUPPORT. What Append and Absorb do, said once (44_sha1_engine.md R190, R194, R195): the frame, the counters, and the
buffer and hash state in closed form. -/

namespace Sys2Proof.Machine

/-! ### Append -/

/-- `Append` within its precondition (R190). -/
theorem append_of_fits (s : State) (c : List Byte) (counted : Bool) (h : s.buflen.val + c.length ≤ 64) :
    s.append c counted = s.setBuffer (memWrite s.buf s.buflen.val c) ⟨s.buflen.val + c.length, Nat.lt_succ_of_le h⟩
      (if counted then s.msglen + BitVec.ofNat 64 c.length else s.msglen) := dif_pos h

theorem append_of_not_fits (s : State) (c : List Byte) (counted : Bool) (h : ¬ s.buflen.val + c.length ≤ 64) :
    s.append c counted = s := dif_neg h

/-- Every register that `Append` does not write. -/
structure AppendFrame (s t : State) : Prop where
  rks : t.rks = s.rks
  rksValid : t.rksValid = s.rksValid
  phase : t.phase = s.phase
  hostIn : t.hostIn = s.hostIn
  response : t.response = s.response
  tr : SameTrButCompress s t

theorem AppendFrame.refl (s : State) : AppendFrame s s := ⟨rfl, rfl, rfl, rfl, rfl, rfl⟩

theorem AppendFrame.trans {s t u : State} (h : AppendFrame s t) (k : AppendFrame t u) : AppendFrame s u where
  rks := k.rks.trans h.rks
  rksValid := k.rksValid.trans h.rksValid
  phase := k.phase.trans h.phase
  hostIn := k.hostIn.trans h.hostIn
  response := k.response.trans h.response
  tr := by
    have ht := h.tr
    have hu := k.tr
    simp only [SameTrButCompress] at ht hu ⊢
    rw [hu, ht]

theorem setBuffer_frame (s : State) (b : Buffer) (l : Fin 65) (m : BitVec 64) : AppendFrame s (s.setBuffer b l m) :=
  ⟨rfl, rfl, rfl, rfl, rfl, rfl⟩

theorem append_frame (s : State) (c : List Byte) (counted : Bool) : AppendFrame s (s.append c counted) := by
  by_cases h : s.buflen.val + c.length ≤ 64
  · rw [append_of_fits s c counted h]
    exact setBuffer_frame ..
  · rw [append_of_not_fits s c counted h]
    exact .refl s

theorem compressBuffer_frame (s : State) : AppendFrame s s.compressBuffer where
  rks := compressBuffer_rks s
  rksValid := compressBuffer_rksValid s
  phase := compressBuffer_phase s
  hostIn := compressBuffer_hostIn s
  response := compressBuffer_response s
  tr := by simp only [SameTrButCompress, compressBuffer_tr, dropCompressRegs_tr]

/-! ### One turn of Absorb -/

theorem absorbChunk_of_ne (s : State) (c : List Byte) (counted : Bool) (h : (s.append c counted).buflen ≠ 64) :
    s.absorbChunk c counted = s.append c counted := if_neg h

theorem absorbChunk_of_eq (s : State) (c : List Byte) (counted : Bool) (h : (s.append c counted).buflen = 64) :
    s.absorbChunk c counted = (s.append c counted).compressBuffer := if_pos h

theorem absorbChunk_frame (s : State) (c : List Byte) (counted : Bool) : AppendFrame s (s.absorbChunk c counted) := by
  by_cases h : (s.append c counted).buflen = 64
  · rw [absorbChunk_of_eq s c counted h]
    exact (append_frame s c counted).trans (compressBuffer_frame _)
  · rw [absorbChunk_of_ne s c counted h]
    exact append_frame s c counted

/-- A turn that does not fill the buffer only appends. -/
theorem absorbChunk_lt (s : State) (c : List Byte) (counted : Bool) (h : s.buflen.val + c.length < 64) :
    s.absorbChunk c counted = s.setBuffer (memWrite s.buf s.buflen.val c) ⟨s.buflen.val + c.length, by omega⟩
      (if counted then s.msglen + BitVec.ofNat 64 c.length else s.msglen) := by
  have hle : s.buflen.val + c.length ≤ 64 := by omega
  have hne : (s.append c counted).buflen ≠ 64 := by
    rw [append_of_fits s c counted hle, setBuffer_buflen]
    intro e
    have := congrArg Fin.val e
    simp at this
    omega
  rw [absorbChunk_of_ne s c counted hne, append_of_fits s c counted hle]

/-- A turn that fills the buffer compresses it. -/
theorem absorbChunk_full (s : State) (c : List Byte) (counted : Bool) (h : s.buflen.val + c.length = 64) :
    s.absorbChunk c counted = (s.setBuffer (memWrite s.buf s.buflen.val c) 64
      (if counted then s.msglen + BitVec.ofNat 64 c.length else s.msglen)).compressBuffer := by
  have hle : s.buflen.val + c.length ≤ 64 := by omega
  have h64 : (⟨s.buflen.val + c.length, Nat.lt_succ_of_le hle⟩ : Fin 65) = 64 := by
    apply Fin.ext
    simp [h]
  have ha := append_of_fits s c counted hle
  rw [h64] at ha
  have he : (s.append c counted).buflen = 64 := by rw [ha, setBuffer_buflen]
  rw [absorbChunk_of_eq s c counted he, ha]

/-- After a turn within the precondition the buffer is not full. -/
theorem absorbChunk_buflen_lt (s : State) (c : List Byte) (counted : Bool) (h : s.buflen.val + c.length ≤ 64) :
    (s.absorbChunk c counted).buflen.val < 64 := by
  by_cases hf : s.buflen.val + c.length = 64
  · rw [absorbChunk_full s c counted hf, compressBuffer_buflen]
    decide
  · have hl : s.buflen.val + c.length < 64 := by omega
    rw [absorbChunk_lt s c counted hl, setBuffer_buflen]
    exact hl

theorem absorbChunk_msglen (s : State) (c : List Byte) (counted : Bool) (h : s.buflen.val + c.length ≤ 64) :
    (s.absorbChunk c counted).msglen = if counted then s.msglen + BitVec.ofNat 64 c.length else s.msglen := by
  by_cases hf : s.buflen.val + c.length = 64
  · rw [absorbChunk_full s c counted hf, compressBuffer_msglen, setBuffer_msglen]
  · have hl : s.buflen.val + c.length < 64 := by omega
    rw [absorbChunk_lt s c counted hl, setBuffer_msglen]

/-! ### Absorb -/

theorem absorbLoop_nil (counted : Bool) (fuel : Nat) (s : State) : absorbLoop counted fuel [] s = s := by
  cases fuel with
  | zero => rfl
  | succ n => simp [absorbLoop]

theorem absorbLoop_succ (counted : Bool) (fuel : Nat) (data : List Byte) (s : State) (h : data ≠ []) :
    absorbLoop counted (fuel + 1) data s = absorbLoop counted fuel (data.drop (min s.freeSpace data.length))
      (s.absorbChunk (data.take (min s.freeSpace data.length)) counted) := by
  rw [absorbLoop, if_neg h]

theorem chunk_fits (s : State) (data : List Byte) :
    s.buflen.val + (data.take (min s.freeSpace data.length)).length ≤ 64 := by
  have := s.buflen.isLt
  simp only [List.length_take, State.freeSpace]
  omega

/-- What every turn within the precondition keeps, `Absorb` keeps. -/
theorem absorbLoop_keeps (counted : Bool) (P : State → Prop)
    (hP : ∀ (s : State) (c : List Byte), s.buflen.val + c.length ≤ 64 → P s → P (s.absorbChunk c counted)) :
    ∀ (fuel : Nat) (data : List Byte) (s : State), P s → P (absorbLoop counted fuel data s) := by
  intro fuel
  induction fuel with
  | zero => intro data s h; exact h
  | succ n ih =>
    intro data s h
    by_cases hd : data = []
    · subst hd
      rw [absorbLoop_nil]
      exact h
    · rw [absorbLoop_succ counted n data s hd]
      exact ih _ _ (hP s _ (chunk_fits s data) h)

theorem absorb_keeps (counted : Bool) (P : State → Prop)
    (hP : ∀ (s : State) (c : List Byte), s.buflen.val + c.length ≤ 64 → P s → P (s.absorbChunk c counted))
    (data : List Byte) (s : State) (h : P s) : P (s.absorb data counted) :=
  absorbLoop_keeps counted P hP _ _ _ h

/-- The frame of `Absorb`. -/
theorem absorb_frame (s : State) (data : List Byte) (counted : Bool) : AppendFrame s (s.absorb data counted) :=
  absorb_keeps counted (fun u => AppendFrame s u) (fun _ _ _ h => h.trans (absorbChunk_frame ..)) data s (.refl s)

/-- `Absorb` of nothing does nothing (R194). -/
theorem absorb_nil (s : State) (counted : Bool) : s.absorb [] counted = s := absorbLoop_nil counted 1 s

/-- The counter of message bytes: `Absorb` counts every byte once, or none (R190, R194). -/
theorem absorbLoop_msglen (counted : Bool) : ∀ (fuel : Nat) (data : List Byte) (s : State),
    data.length + (if s.buflen.val = 64 then 1 else 0) ≤ fuel →
    (absorbLoop counted fuel data s).msglen = if counted then s.msglen + BitVec.ofNat 64 data.length else s.msglen := by
  intro fuel
  induction fuel with
  | zero =>
    intro data s h
    have hd : data = [] := List.eq_nil_of_length_eq_zero (by omega)
    subst hd
    rw [absorbLoop_nil]
    cases counted <;> simp
  | succ n ih =>
    intro data s h
    by_cases hd : data = []
    · subst hd
      rw [absorbLoop_nil]
      cases counted <;> simp
    · have hpos : 0 < data.length := List.length_pos_of_ne_nil hd
      have hfit := chunk_fits s data
      have hlt := absorbChunk_buflen_lt s _ counted hfit
      rw [absorbLoop_succ counted n data s hd, ih, absorbChunk_msglen _ _ _ hfit]
      · cases counted with
        | false => rfl
        | true =>
          simp only [if_true, List.length_take, List.length_drop, BitVec.add_assoc, ← BitVec.ofNat_add]
          congr 2
          omega
      · rw [if_neg (by omega), List.length_drop]
        have := s.buflen.isLt
        simp only [State.freeSpace]
        split at h <;> omega

theorem absorb_msglen (s : State) (data : List Byte) (counted : Bool) :
    (s.absorb data counted).msglen = if counted then s.msglen + BitVec.ofNat 64 data.length else s.msglen := by
  apply absorbLoop_msglen
  split <;> omega

/-- `u` has absorbed `m` since its hash state was `h0`: whole blocks compressed, the rest buffered (R34 d). -/
structure Absorbed (h0 : Hash) (m : List Byte) (u : State) : Prop where
  h : u.h = hashBlocks h0 m
  buflen : u.buflen.val = m.length % 64
  buf : memRead u.buf 0 u.buflen.val = leftover m

/-- What is in the buffer is what has been absorbed and not compressed. -/
theorem absorbed_self (s : State) (hl : s.buflen.val < 64) : Absorbed s.h (memRead s.buf 0 s.buflen.val) s := by
  have hlen := memRead_length s.buf 0 s.buflen.val (by omega)
  refine ⟨?_, ?_, ?_⟩
  · rw [hashBlocks_of_lt]
    omega
  · rw [hlen, Nat.mod_eq_of_lt hl]
  · rw [leftover_of_lt]
    omega

/-- One turn absorbs its bytes. -/
theorem absorbed_chunk (h0 : Hash) (m c : List Byte) (u : State) (counted : Bool) (hu : Absorbed h0 m u)
    (hc : u.buflen.val + c.length ≤ 64) : Absorbed h0 (m ++ c) (u.absorbChunk c counted) := by
  have hb := hu.buflen
  by_cases hf : u.buflen.val + c.length = 64
  · rw [absorbChunk_full u c counted hf]
    have hm : m.length % 64 + c.length = 64 := by omega
    have hread : memWrite u.buf u.buflen.val c = toBuffer (leftover m ++ c) := by
      rw [← toBuffer_memRead (memWrite u.buf u.buflen.val c)]
      have := memRead_memWrite u.buf u.buflen.val c hc
      rw [hf] at this
      rw [this, hu.buf]
    refine ⟨?_, ?_, ?_⟩
    · rw [compressBuffer_h, setBuffer_h, setBuffer_buf, hread, hu.h, hashBlocks_append_full h0 m c hm]
    · rw [compressBuffer_buflen, List.length_append]
      have : ((0 : Fin 65).val) = 0 := rfl
      omega
    · rw [compressBuffer_buflen, leftover_append_full m c hm]
      rfl
  · have hl : u.buflen.val + c.length < 64 := by omega
    rw [absorbChunk_lt u c counted hl]
    have hm : m.length % 64 + c.length < 64 := by omega
    refine ⟨?_, ?_, ?_⟩
    · rw [setBuffer_h, hu.h, hashBlocks_append_lt h0 m c hm]
    · rw [setBuffer_buflen, List.length_append]
      simp only
      omega
    · rw [setBuffer_buf, setBuffer_buflen]
      simp only
      rw [memRead_memWrite u.buf u.buflen.val c hc, hu.buf, leftover_append_lt m c hm]

/-- The loop absorbs all its bytes. -/
theorem absorbed_loop (h0 : Hash) (counted : Bool) : ∀ (fuel : Nat) (data m : List Byte) (u : State),
    Absorbed h0 m u → data.length ≤ fuel → Absorbed h0 (m ++ data) (absorbLoop counted fuel data u) := by
  intro fuel
  induction fuel with
  | zero =>
    intro data m u hu h
    have hd : data = [] := List.eq_nil_of_length_eq_zero (by omega)
    subst hd
    rw [absorbLoop_nil, List.append_nil]
    exact hu
  | succ n ih =>
    intro data m u hu h
    by_cases hd : data = []
    · subst hd
      rw [absorbLoop_nil, List.append_nil]
      exact hu
    · have hpos : 0 < data.length := List.length_pos_of_ne_nil hd
      have hb := hu.buflen
      rw [absorbLoop_succ counted n data u hd]
      have hk := absorbed_chunk h0 m _ u counted hu (chunk_fits u data)
      have hrec := ih (data.drop (min u.freeSpace data.length)) _ _ hk (by
        simp only [List.length_drop, State.freeSpace]
        omega)
      rwa [List.append_assoc, List.take_append_drop] at hrec

/-- `Absorb` in closed form: all its bytes are absorbed behind those before them (R194). -/
theorem absorb_absorbed (h0 : Hash) (m data : List Byte) (s : State) (counted : Bool) (hs : Absorbed h0 m s) :
    Absorbed h0 (m ++ data) (s.absorb data counted) :=
  absorbed_loop h0 counted _ data m s hs (by omega)

/-! ### The bytes of BUF above BUFLEN -/

/-- `BUF` is zero from `BUFLEN` on (R34 c). -/
def TailZero (s : State) : Prop :=
  s.buf = toBuffer (memRead s.buf 0 s.buflen.val)

theorem compressBuffer_tailZero (s : State) : TailZero s.compressBuffer := by
  rw [TailZero, compressBuffer_buf, compressBuffer_buflen]
  exact toBuffer_nil.symm

theorem absorbChunk_tailZero (s : State) (c : List Byte) (counted : Bool) (h : s.buflen.val + c.length ≤ 64)
    (hz : TailZero s) : TailZero (s.absorbChunk c counted) := by
  by_cases hf : s.buflen.val + c.length = 64
  · rw [absorbChunk_full s c counted hf]
    exact compressBuffer_tailZero _
  · have hl : s.buflen.val + c.length < 64 := by omega
    rw [absorbChunk_lt s c counted hl, TailZero, setBuffer_buf, setBuffer_buflen]
    simp only
    rw [memRead_memWrite s.buf s.buflen.val c h]
    have hlen := memRead_length s.buf 0 s.buflen.val (by omega)
    have hw := memWrite_toBuffer (memRead s.buf 0 s.buflen.val) c
    rw [hlen] at hw
    rw [← hw]
    exact congrArg (fun b => memWrite b s.buflen.val c) hz

/-- `Absorb` keeps the bytes above `BUFLEN` zero. -/
theorem absorb_tailZero (s : State) (data : List Byte) (counted : Bool) (hz : TailZero s) :
    TailZero (s.absorb data counted) :=
  absorb_keeps counted TailZero (fun u c h hu => absorbChunk_tailZero u c counted h hu) data s hz

/-- `Absorb` that fills the buffer leaves the bytes above `BUFLEN` zero, whatever they were before. -/
theorem absorb_tailZero_of_full (s : State) (data : List Byte) (counted : Bool) (hl : s.buflen.val < 64)
    (h : 64 ≤ s.buflen.val + data.length) : TailZero (s.absorb data counted) := by
  have hd : data ≠ [] := by
    intro e
    subst e
    simp only [List.length_nil] at h
    omega
  rw [State.absorb, absorbLoop_succ counted _ data s hd]
  apply absorbLoop_keeps counted TailZero (fun u c hc hu => absorbChunk_tailZero u c counted hc hu)
  rw [absorbChunk_full]
  · exact compressBuffer_tailZero _
  · simp only [List.length_take, State.freeSpace]
    omega

/-- `Absorb` that does not fill the buffer is one append. -/
theorem absorb_of_lt (s : State) (data : List Byte) (counted : Bool) (h : s.buflen.val + data.length < 64) :
    (s.absorb data counted).buf = memWrite s.buf s.buflen.val data := by
  by_cases hd : data = []
  · subst hd
    rw [absorb_nil]
    rfl
  · have hmin : min s.freeSpace data.length = data.length := by
      simp only [State.freeSpace]
      omega
    rw [State.absorb, absorbLoop_succ counted _ data s hd, hmin, List.take_length, List.drop_length, absorbLoop_nil,
      absorbChunk_lt s data counted h, setBuffer_buf]

/-! ### What Absorb depends on -/

/-- Two states with the same SHA-1 registers. -/
structure SameContext (s t : State) : Prop where
  h : t.h = s.h
  buf : t.buf = s.buf
  buflen : t.buflen = s.buflen
  msglen : t.msglen = s.msglen

theorem SameContext.refl (s : State) : SameContext s s := ⟨rfl, rfl, rfl, rfl⟩

theorem absorbChunk_sameContext (s t : State) (c : List Byte) (counted : Bool) (hfit : s.buflen.val + c.length ≤ 64)
    (hst : SameContext s t) : SameContext (s.absorbChunk c counted) (t.absorbChunk c counted) := by
  have hb := hst.buflen
  by_cases hf : s.buflen.val + c.length = 64
  · rw [absorbChunk_full s c counted hf, absorbChunk_full t c counted (by rw [hb]; exact hf)]
    refine ⟨?_, ?_, ?_, ?_⟩
    · rw [compressBuffer_h, compressBuffer_h, setBuffer_h, setBuffer_h, setBuffer_buf, setBuffer_buf, hst.h, hst.buf, hb]
    · rw [compressBuffer_buf, compressBuffer_buf]
    · rw [compressBuffer_buflen, compressBuffer_buflen]
    · rw [compressBuffer_msglen, compressBuffer_msglen, setBuffer_msglen, setBuffer_msglen, hst.msglen]
  · have hl : s.buflen.val + c.length < 64 := by omega
    rw [absorbChunk_lt s c counted hl, absorbChunk_lt t c counted (by rw [hb]; exact hl)]
    refine ⟨?_, ?_, ?_, ?_⟩
    · rw [setBuffer_h, setBuffer_h, hst.h]
    · rw [setBuffer_buf, setBuffer_buf, hst.buf, hb]
    · rw [setBuffer_buflen, setBuffer_buflen]
      apply Fin.ext
      simp only [hb]
    · rw [setBuffer_msglen, setBuffer_msglen, hst.msglen]

/-- `Absorb` reads and writes the SHA-1 registers alone (R86). -/
theorem absorbLoop_sameContext (counted : Bool) : ∀ (fuel : Nat) (data : List Byte) (s t : State), SameContext s t →
    SameContext (absorbLoop counted fuel data s) (absorbLoop counted fuel data t) := by
  intro fuel
  induction fuel with
  | zero => intro data s t h; exact h
  | succ n ih =>
    intro data s t h
    by_cases hd : data = []
    · subst hd
      rw [absorbLoop_nil, absorbLoop_nil]
      exact h
    · have hfs : t.freeSpace = s.freeSpace := by simp only [State.freeSpace, h.buflen]
      rw [absorbLoop_succ counted n data s hd, absorbLoop_succ counted n data t hd, hfs]
      exact ih _ _ _ (absorbChunk_sameContext s t _ counted (chunk_fits s data) h)

theorem absorb_sameContext (s t : State) (data : List Byte) (counted : Bool) (h : SameContext s t) :
    SameContext (s.absorb data counted) (t.absorb data counted) :=
  absorbLoop_sameContext counted _ data s t h

/-- Absorbing two parts one after the other leaves the SHA-1 registers as absorbing the whole does (R206). -/
theorem absorb_append (s : State) (a b : List Byte) (hl : s.buflen.val < 64) :
    SameContext ((s.absorb a true).absorb b true) (s.absorb (a ++ b) true) := by
  have ha := absorb_absorbed s.h _ a s true (absorbed_self s hl)
  have hab := absorb_absorbed s.h _ (a ++ b) s true (absorbed_self s hl)
  have hb := absorb_absorbed s.h _ b _ true ha
  have hlen := memRead_length s.buf 0 s.buflen.val (by omega)
  have hal : (s.absorb a true).buflen.val = (s.buflen.val + a.length) % 64 := by
    rw [ha.buflen, List.length_append, hlen]
  have happ := List.length_append (as := a) (bs := b)
  rw [List.append_assoc] at hb
  refine ⟨?_, ?_, ?_, ?_⟩
  · rw [hab.h, hb.h]
  · by_cases hfull : s.buflen.val + (a ++ b).length < 64
    · rw [absorb_of_lt s (a ++ b) true hfull, absorb_of_lt (s.absorb a true) b true (by omega),
        absorb_of_lt s a true (by omega), hal, Nat.mod_eq_of_lt (by omega), memWrite_memWrite]
    · have z1 := absorb_tailZero_of_full s (a ++ b) true hl (by omega)
      have z2 : TailZero ((s.absorb a true).absorb b true) := by
        by_cases h2 : 64 ≤ s.buflen.val + a.length
        · exact absorb_tailZero _ _ _ (absorb_tailZero_of_full s a true hl h2)
        · exact absorb_tailZero_of_full _ _ _ (by omega) (by omega)
      rw [z1, z2, hab.buf, hb.buf]
  · apply Fin.ext
    rw [hab.buflen, hb.buflen]
  · rw [absorb_msglen, absorb_msglen, absorb_msglen]
    simp only [if_true, List.length_append, BitVec.ofNat_add, BitVec.add_assoc]

/-! ### The response port -/

theorem append_setResponse (s : State) (r : Response) (c : List Byte) (counted : Bool) :
    (s.setResponse r).append c counted = (s.append c counted).setResponse r := by
  by_cases h : s.buflen.val + c.length ≤ 64
  · rw [append_of_fits s c counted h, append_of_fits (s.setResponse r) c counted h]
    rfl
  · rw [append_of_not_fits s c counted h, append_of_not_fits (s.setResponse r) c counted h]

theorem compressBuffer_setResponse (s : State) (r : Response) :
    (s.setResponse r).compressBuffer = s.compressBuffer.setResponse r := by
  simp only [State.compressBuffer, setResponse_h, setResponse_buf]
  generalize sha1Compress s.h s.buf = x
  rfl

theorem absorbLoop_setResponse (counted : Bool) (r : Response) : ∀ (fuel : Nat) (data : List Byte) (s : State),
    absorbLoop counted fuel data (s.setResponse r) = (absorbLoop counted fuel data s).setResponse r := by
  intro fuel
  induction fuel with
  | zero => intro data s; rfl
  | succ n ih =>
    intro data s
    by_cases hd : data = []
    · subst hd
      rw [absorbLoop_nil, absorbLoop_nil]
    · have hfs : (s.setResponse r).freeSpace = s.freeSpace := rfl
      have hch : ∀ c, (s.setResponse r).absorbChunk c counted = (s.absorbChunk c counted).setResponse r := by
        intro c
        by_cases h : (s.append c counted).buflen = 64
        · rw [absorbChunk_of_eq s c counted h, absorbChunk_of_eq _ c counted (by
            rw [append_setResponse, setResponse_buflen]; exact h), append_setResponse, compressBuffer_setResponse]
        · rw [absorbChunk_of_ne s c counted h, absorbChunk_of_ne _ c counted (by
            rw [append_setResponse, setResponse_buflen]; exact h), append_setResponse]
      rw [absorbLoop_succ counted n data s hd, absorbLoop_succ counted n data _ hd, hfs, hch, ih]

/-- `Absorb` does not look at the response port. -/
theorem absorb_setResponse (s : State) (r : Response) (data : List Byte) (counted : Bool) :
    (s.setResponse r).absorb data counted = (s.absorb data counted).setResponse r :=
  absorbLoop_setResponse counted r _ data s

end Sys2Proof.Machine
end

