-- ==== Sys2Proof/Laws/Cipher.lean ====
section
/-! SUPPORT. What each operation of the cipher gives, byte by byte (42_aes_cipher.md R140 to R143, R151). -/

namespace Sys2Proof.Machine

theorem byteAt_subBytes (s : Block) (i : Nat) (hi : i < 16) : byteAt (subBytes s) i = sbox (byteAt s i) :=
  byteAt_tabulate _ _ hi

theorem byteAt_shiftRows (s : Block) (i : Nat) (hi : i < 16) :
    byteAt (shiftRows s) i = byteAt s (i % 4 + 4 * ((i / 4 + i % 4) % 4)) :=
  byteAt_tabulate _ _ hi

theorem byteAt_mixColumns (s : Block) (i : Nat) (hi : i < 16) :
    byteAt (mixColumns s) i = (wordBytes (mixColumn (wordAt s (4 * (i / 4))))).getD (i % 4) 0 :=
  byteAt_tabulate _ _ hi

theorem byteAt_addRoundKey (s rk : Block) (i : Nat) (hi : i < 16) :
    byteAt (addRoundKey s rk) i = byteAt s i ^^^ byteAt rk i :=
  byteAt_tabulate _ _ hi

/-- Round key `r` is the bytes `RKS[16r..16r+15]` (R52). -/
theorem byteAt_roundKey (rks : Schedule) (r i : Nat) (hi : i < 16) :
    byteAt (roundKey rks r) i = byteAt rks (16 * r + i) := by
  rw [roundKey, byteAt_toBlock _ _ hi, getD_memRead _ _ _ _ hi]

/-! ### ECB (R151) -/

theorem flatMap_range_length (f : Nat → List Byte) (h : ∀ j, (f j).length = 16) :
    ∀ n, ((List.range n).flatMap f).length = 16 * n := by
  intro n
  induction n with
  | zero => rfl
  | succ n ih => rw [List.range_succ, List.flatMap_append, List.length_append, ih]; simp [h]; omega

theorem encryptEcb_length (rks : Schedule) (n : Nat) (data : List Byte) : (encryptEcb rks n data).length = 16 * n :=
  flatMap_range_length _ (fun _ => bytesOf_length _) n

theorem encryptEcb_zero (rks : Schedule) (data : List Byte) : encryptEcb rks 0 data = [] := rfl

theorem encryptEcb_succ (rks : Schedule) (n : Nat) (data : List Byte) :
    encryptEcb rks (n + 1) data =
      encryptEcb rks n data ++ bytesOf (encryptBlock rks (toBlock ((data.drop (16 * n)).take 16))) := by
  rw [encryptEcb, List.range_succ, List.flatMap_append]
  simp [encryptEcb]

/-- Block `j` of the ciphertext is the encryption of block `j` of the plaintext (R151). -/
theorem encryptEcb_block (rks : Schedule) (data : List Byte) (n j : Nat) (h : j < n) :
    ((encryptEcb rks n data).drop (16 * j)).take 16 =
      bytesOf (encryptBlock rks (toBlock ((data.drop (16 * j)).take 16))) := by
  induction n with
  | zero => omega
  | succ n ih =>
    have hl := encryptEcb_length rks n data
    rw [encryptEcb_succ]
    by_cases hj : j < n
    · rw [List.drop_append_of_le_length (by omega), List.take_append_of_le_length (by rw [List.length_drop]; omega), ih hj]
    · obtain rfl : j = n := by omega
      rw [List.drop_append, List.drop_eq_nil_of_le (by omega), List.nil_append, hl, Nat.sub_self, List.drop_zero,
        List.take_of_length_le (by rw [bytesOf_length])]

theorem encryptEcb_congr (rks : Schedule) (a b : List Byte) (n : Nat)
    (h : ∀ j, j < n → (a.drop (16 * j)).take 16 = (b.drop (16 * j)).take 16) :
    encryptEcb rks n a = encryptEcb rks n b := by
  induction n with
  | zero => rw [encryptEcb_zero, encryptEcb_zero]
  | succ n ih =>
    rw [encryptEcb_succ, encryptEcb_succ]
    exact congrArg₂ (fun x y => x ++ bytesOf (encryptBlock rks (toBlock y))) (ih fun j hj => h j (by omega)) (h n (by omega))

/-- Blocks are encrypted independently: the ciphertext of two parts is the two ciphertexts (R153). -/
theorem encryptEcb_append (rks : Schedule) (a b : List Byte) (m : Nat) (ha : a.length = 16 * m) :
    ∀ n, encryptEcb rks (m + n) (a ++ b) = encryptEcb rks m a ++ encryptEcb rks n b := by
  intro n
  induction n with
  | zero =>
    rw [encryptEcb_zero, List.append_nil, Nat.add_zero]
    apply encryptEcb_congr
    intro j hj
    rw [List.drop_append_of_le_length (by omega), List.take_append_of_le_length (by rw [List.length_drop]; omega)]
  | succ n ih =>
    have hd : (a ++ b).drop (16 * (m + n)) = b.drop (16 * n) := by
      rw [List.drop_append, List.drop_eq_nil_of_le (by omega), List.nil_append]
      congr 1
      omega
    rw [← Nat.add_assoc, encryptEcb_succ, ih, encryptEcb_succ, ← List.append_assoc, hd]

/-- One block (R153). -/
theorem encryptEcb_one (rks : Schedule) (data : List Byte) (h : data.length = 16) :
    encryptEcb rks 1 data = bytesOf (encryptBlock rks (toBlock data)) := by
  rw [encryptEcb_succ, encryptEcb_zero, List.nil_append, Nat.mul_zero, List.drop_zero,
    List.take_of_length_le (by omega)]

end Sys2Proof.Machine
end

