-- ==== Sys2Proof/Laws/Compress.lean ====
section
/-! SUPPORT. The laws of the message schedule and the rounds (43_sha1_compressor.md R170 to R183). -/

namespace Sys2Proof.Machine

/-! ### The words of a block (R171) -/

theorem wordsOf_length : ∀ (n : Nat) (bytes : List Byte), bytes.length = 4 * n → (wordsOf bytes).length = n := by
  intro n
  induction n with
  | zero =>
    intro bytes h
    rw [List.eq_nil_of_length_eq_zero h]
    rfl
  | succ n ih =>
    intro bytes h
    match bytes, h with
    | b0 :: b1 :: b2 :: b3 :: rest, h =>
      simp only [List.length_cons] at h
      rw [wordsOf, List.length_cons, ih rest (by omega)]

theorem wordsOf_getD : ∀ (i : Nat) (bytes : List Byte), 4 * i + 4 ≤ bytes.length →
    (wordsOf bytes).getD i 0 =
      be32 (bytes.getD (4 * i) 0) (bytes.getD (4 * i + 1) 0) (bytes.getD (4 * i + 2) 0) (bytes.getD (4 * i + 3) 0) := by
  intro i
  induction i with
  | zero =>
    intro bytes h
    match bytes, h with
    | b0 :: b1 :: b2 :: b3 :: rest, h => rfl
  | succ i ih =>
    intro bytes h
    match bytes, h with
    | b0 :: b1 :: b2 :: b3 :: rest, h =>
      simp only [List.length_cons] at h
      rw [wordsOf, List.getD_cons_succ, ih rest (by omega)]
      rfl

theorem blockWords_length (block : Buffer) : (blockWords block).length = 16 :=
  wordsOf_length 16 _ (bytesOf_length block)

/-- `W[i]` for `i < 16` (R171). -/
theorem blockWords_getD (block : Buffer) (i : Nat) (hi : i < 16) : (blockWords block).getD i 0 =
    be32 (byteAt block (4 * i)) (byteAt block (4 * i + 1)) (byteAt block (4 * i + 2)) (byteAt block (4 * i + 3)) := by
  rw [blockWords, wordsOf_getD i _ (by rw [bytesOf_length]; omega)]
  simp only [bytesOf_getD]

/-! ### The expansion (R172) -/

theorem extendSchedule_length : ∀ (n : Nat) (w : List Word), (extendSchedule n w).length = w.length + n := by
  intro n
  induction n with
  | zero => intro w; rfl
  | succ n ih =>
    intro w
    rw [extendSchedule, ih, List.length_append, List.length_singleton]
    omega

/-- The expansion leaves the words that are there. -/
theorem extendSchedule_getD_of_lt : ∀ (n : Nat) (w : List Word) (i : Nat), i < w.length →
    (extendSchedule n w).getD i 0 = w.getD i 0 := by
  intro n
  induction n with
  | zero => intro w i _; rfl
  | succ n ih =>
    intro w i h
    rw [extendSchedule, ih _ i (by rw [List.length_append]; omega), List.getD_append _ _ _ _ h]

/-- Every word the expansion adds is the recurrence over the words before it (R172). -/
theorem extendSchedule_getD : ∀ (n : Nat) (w : List Word) (i : Nat), 16 ≤ w.length → w.length ≤ i → i < w.length + n →
    (extendSchedule n w).getD i 0 =
      rotL32 ((extendSchedule n w).getD (i - 3) 0 ^^^ (extendSchedule n w).getD (i - 8) 0 ^^^
        (extendSchedule n w).getD (i - 14) 0 ^^^ (extendSchedule n w).getD (i - 16) 0) 1 := by
  intro n
  induction n with
  | zero => intro w i _ h1 h2; omega
  | succ n ih =>
    intro w i h16 h1 h2
    have hl : (w ++ [nextWord w]).length = w.length + 1 := by rw [List.length_append, List.length_singleton]
    rw [extendSchedule]
    by_cases hi : i = w.length
    · subst hi
      have e : ∀ k, 1 ≤ k → k ≤ w.length →
          (extendSchedule n (w ++ [nextWord w])).getD (w.length - k) 0 = w.getD (w.length - k) 0 := by
        intro k hk hkl
        rw [extendSchedule_getD_of_lt n _ _ (by omega), List.getD_append _ _ _ _ (by omega)]
      rw [e 3 (by omega) (by omega), e 8 (by omega) (by omega), e 14 (by omega) (by omega), e 16 (by omega) (by omega),
        extendSchedule_getD_of_lt n _ _ (by omega), List.getD_append_right _ _ _ _ (by omega), Nat.sub_self]
      rfl
    · exact ih _ i (by omega) (by omega) (by omega)

theorem messageSchedule_length (block : Buffer) : (messageSchedule block).length = 80 := by
  rw [messageSchedule, extendSchedule_length, blockWords_length]

/-- `W[i]` for `i < 16` (R171). -/
theorem messageSchedule_getD_of_lt (block : Buffer) (i : Nat) (hi : i < 16) : (messageSchedule block).getD i 0 =
    be32 (byteAt block (4 * i)) (byteAt block (4 * i + 1)) (byteAt block (4 * i + 2)) (byteAt block (4 * i + 3)) := by
  rw [messageSchedule, extendSchedule_getD_of_lt _ _ _ (by rw [blockWords_length]; exact hi), blockWords_getD _ _ hi]

/-- `W[i]` for `16 <= i < 80` (R172). -/
theorem messageSchedule_getD (block : Buffer) (i : Nat) (h1 : 16 ≤ i) (h2 : i < 80) : (messageSchedule block).getD i 0 =
    rotL32 ((messageSchedule block).getD (i - 3) 0 ^^^ (messageSchedule block).getD (i - 8) 0 ^^^
      (messageSchedule block).getD (i - 14) 0 ^^^ (messageSchedule block).getD (i - 16) 0) 1 := by
  have hl := blockWords_length block
  exact extendSchedule_getD 64 _ i (by omega) (by omega) (by omega)

/-! ### The rounds (R178, R183) -/

/-- The working variables after the rounds of a prefix of the schedule, then those of the rest. -/
theorem sha1Rounds_append : ∀ (w x : List Word) (t : Nat) (v : WorkVars),
    sha1Rounds t (w ++ x) v = sha1Rounds (t + w.length) x (sha1Rounds t w v) := by
  intro w
  induction w with
  | nil => intros; rfl
  | cons y w ih =>
    intro x t v
    rw [List.cons_append, sha1Rounds, ih, sha1Rounds, List.length_cons]
    congr 1
    omega

/-- One more round (R178). -/
theorem sha1Rounds_take_succ (w : List Word) (t : Nat) (v : WorkVars) (h : t < w.length) :
    sha1Rounds 0 (w.take (t + 1)) v = sha1Round t (w.getD t 0) (sha1Rounds 0 (w.take t) v) := by
  rw [List.take_succ_eq_append_getElem h, sha1Rounds_append, List.length_take, Nat.min_eq_left (by omega), Nat.zero_add,
    List.getD_eq_getElem _ _ h]
  rfl

end Sys2Proof.Machine
end

