-- ==== Sys2Proof/Laws/Decode.lean ====
section
/-! SUPPORT. The laws of the byte order, the opcode map, the serial frame and the payloads of SHA1_HASH (00_scope.md R15,
30_encoding.md R73, R75, R81, 44_sha1_engine.md R212). -/

namespace Sys2Proof

/-! ### Byte order -/

/-- `BE32` of `BE32bytes` is the word (R15). -/
theorem be32_of_bytes (w : Word) :
    be32 (w.extractLsb' 24 8) (w.extractLsb' 16 8) (w.extractLsb' 8 8) (w.extractLsb' 0 8) = w := by
  apply BitVec.eq_of_getLsbD_eq
  intro i hi
  simp only [be32, BitVec.getLsbD_or, BitVec.getLsbD_shiftLeft, BitVec.getLsbD_setWidth, BitVec.getLsbD_extractLsb']
  interval_cases i <;> simp

/-- `BE32bytes` of `BE32` is the four bytes (R15). -/
theorem bytes_of_be32 (a b c d : Byte) : be32Bytes (be32 a b c d) = [a, b, c, d] := by
  have h : ∀ (k : Nat) (x : Byte), (∀ i, i < 8 → (be32 a b c d).getLsbD (k + i) = x.getLsbD i) →
      (be32 a b c d).extractLsb' k 8 = x := by
    intro k x hx
    apply BitVec.eq_of_getLsbD_eq
    intro i hi
    rw [BitVec.getLsbD_extractLsb', hx i hi]
    simp [hi]
  unfold be32Bytes
  rw [h 24 a, h 16 b, h 8 c, h 0 d]
  all_goals
    intro i hi
    simp only [be32, BitVec.getLsbD_or, BitVec.getLsbD_shiftLeft, BitVec.getLsbD_setWidth]
    interval_cases i <;> simp

@[simp] theorem be32Bytes_length (w : Word) : (be32Bytes w).length = 4 := rfl

@[simp] theorem be64Bytes_length (n : BitVec 64) : (be64Bytes n).length = 8 := by simp [be64Bytes]

/-! ### Opcodes -/

/-- The opcode map finds every opcode by its own byte (R75). -/
@[simp] theorem ofByte_byte (o : Opcode) : Opcode.ofByte o.byte = some o := by
  cases o <;> decide

/-- The opcode map names an opcode only for its own byte (R75). -/
theorem byte_of_ofByte (op : Byte) (o : Opcode) (h : Opcode.ofByte op = some o) : o.byte = op := by
  have := List.find?_some h
  simpa using this

/-- `OP` values other than the seven name nothing (R77). -/
theorem ofByte_eq_none_iff (op : Byte) : Opcode.ofByte op = none ↔ ∀ o : Opcode, o.byte ≠ op := by
  constructor
  · intro h o e
    rw [← e, ofByte_byte] at h
    cases h
  · intro h
    cases e : Opcode.ofByte op with
    | none => rfl
    | some o => exact absurd (byte_of_ofByte op o e) (h o)

/-- A command is what its opcode and payload make. -/
@[simp] theorem command_of_opcode (i : Instr) : i.opcode.command i.payload = i := by
  cases i <;> rfl

@[simp] theorem opcode_command (o : Opcode) (p : List Byte) : (o.command p).opcode = o := by
  cases o <;> rfl

/-- A payload the format allows is the command's payload. -/
theorem payload_command (o : Opcode) (p : List Byte) (h : o.format.allows p.length = true) :
    (o.command p).payload = p := by
  cases o <;> simp_all [Opcode.command, Opcode.format, Format.allows, Instr.payload]

/-! ### Well-formed commands -/

theorem maxLen_lt : Config.maxLen < 2 ^ 32 := by decide

theorem wellFormed_iff (maxPayload : Nat) (i : Instr) :
    i.wellFormed maxPayload = true ↔ i.payload.length ≤ maxPayload ∧ i.opcode.format.allows i.payload.length = true := by
  have hb : i.blockIsWhole = i.opcode.format.allows i.payload.length := by cases i <;> rfl
  rw [Instr.wellFormed, Bool.and_eq_true, hb, Instr.lenFits, decide_eq_true_iff]

/-! ### Frames -/

/-- A serial frame is taken off whole, and what follows it is left (R73). -/
theorem splitFrame_bytes (f : Frame) (rest : List Byte) (h : f.payload.length ≤ Config.maxLen) :
    splitFrame (f.bytes ++ rest) = some (f, rest) := by
  have hlt : f.payload.length < 2 ^ 32 := lt_of_le_of_lt h maxLen_lt
  have hlen : (BitVec.ofNat 32 f.payload.length).toNat = f.payload.length := by
    rw [BitVec.toNat_ofNat, Nat.mod_eq_of_lt hlt]
  simp only [Frame.bytes, be32Bytes, List.cons_append, List.nil_append, splitFrame, be32_of_bytes, hlen]
  simp

/-- A frame taken off the front is the bytes that were there (R73). -/
theorem bytes_of_splitFrame (bytes rest : List Byte) (f : Frame) (h : splitFrame bytes = some (f, rest)) :
    bytes = f.bytes ++ rest ∧ f.payload.length ≤ Config.maxLen := by
  match bytes with
  | [] | [_] | [_, _] | [_, _, _] | [_, _, _, _] => simp [splitFrame] at h
  | op :: l0 :: l1 :: l2 :: l3 :: tl =>
    simp only [splitFrame] at h
    split at h
    · rename_i hle
      simp only [Option.some.injEq, Prod.mk.injEq] at h
      obtain ⟨rfl, rfl⟩ := h
      have hlen : (tl.take (be32 l0 l1 l2 l3).toNat).length = (be32 l0 l1 l2 l3).toNat := by
        simp [hle]
      refine ⟨?_, ?_⟩
      · simp only [Frame.bytes, hlen, BitVec.ofNat_toNat, BitVec.setWidth_eq, bytes_of_be32]
        simp
      · have := (be32 l0 l1 l2 l3).isLt
        simp only [hlen, Config.maxLen]
        omega
    · cases h

/-- Decoding a frame, by whether the format allows its `LEN` (R81). -/
theorem decodeFrame_ok_iff (f : Frame) (i : Instr) :
    decodeFrame f = .ok i ↔ f = i.frame ∧ i.opcode.format.allows i.payload.length = true := by
  unfold decodeFrame
  constructor
  · intro h
    split at h
    · cases h
    · rename_i o ho
      split at h
      · rename_i ha
        cases h
        refine ⟨?_, ?_⟩
        · cases f
          simp only [Instr.frame, opcode_command, payload_command o _ ha, byte_of_ofByte _ _ ho]
        · rw [opcode_command, payload_command o _ ha]
          exact ha
      · cases h
  · rintro ⟨rfl, h⟩
    simp [Instr.frame, h]

/-- A `LEN` the opcode's format forbids is rejected by name (R78). -/
theorem decodeFrame_badLength (o : Opcode) (p : List Byte) (h : o.format.allows p.length = false) :
    decodeFrame { op := o.byte, payload := p } = .error (.badLength o p.length) := by
  simp [decodeFrame, h]

/-- An `OP` that is none of the seven is rejected by name (R77). -/
theorem decodeFrame_unknownOp (f : Frame) (h : ∀ o : Opcode, o.byte ≠ f.op) :
    decodeFrame f = .error (.unknownOp f.op) := by
  simp [decodeFrame, (ofByte_eq_none_iff f.op).2 h]

/-- The serial decoder is the frame decoder after the split (R73, R81). -/
theorem decode_ok_iff (bytes rest : List Byte) (i : Instr) :
    decode bytes = .ok (i, rest) ↔ ∃ f, splitFrame bytes = some (f, rest) ∧ decodeFrame f = .ok i := by
  unfold decode
  cases hs : splitFrame bytes with
  | none => simp
  | some p =>
    obtain ⟨f, r⟩ := p
    cases hd : decodeFrame f with
    | error e => simp [hd]
    | ok j =>
      simp only [hd, Except.ok.injEq, Prod.mk.injEq, Option.some.injEq]
      constructor
      · rintro ⟨rfl, rfl⟩
        exact ⟨f, ⟨rfl, rfl⟩, hd⟩
      · rintro ⟨g, ⟨rfl, rfl⟩, hg⟩
        rw [hd] at hg
        cases hg
        exact ⟨rfl, rfl⟩

/-- The length of a serial frame: 5 + `LEN` (R70). -/
theorem frame_bytes_length (f : Frame) : f.bytes.length = 5 + f.payload.length := by
  simp [Frame.bytes]
  omega

/-! ### The pseudo-command SHA1_HASH (R212) -/

/-- Cutting data loses nothing and keeps the order. -/
theorem splitPayload_flatten (max : Nat) : ∀ (cuts : Nat) (data : List Byte), (splitPayload max cuts data).flatten = data := by
  intro cuts
  induction cuts with
  | zero => intro data; simp [splitPayload]
  | succ n ih =>
    intro data
    rw [splitPayload]
    split
    · simp
    · rw [List.flatten_cons, ih, List.take_append_drop]

/-- With enough cuts every payload fits. -/
theorem splitPayload_fits (max : Nat) : ∀ (cuts : Nat) (data : List Byte), data.length ≤ (cuts + 1) * max →
    ∀ p ∈ splitPayload max cuts data, p.length ≤ max := by
  intro cuts
  induction cuts with
  | zero =>
    intro data h p hp
    rw [splitPayload, List.mem_singleton] at hp
    rw [hp]
    omega
  | succ n ih =>
    intro data h p hp
    rw [splitPayload] at hp
    split at hp
    · rw [List.mem_singleton] at hp
      rwa [hp]
    · rcases List.mem_cons.1 hp with rfl | hp
      · rw [List.length_take]
        exact Nat.min_le_left _ _
      · refine ih _ ?_ p hp
        rw [Nat.succ_mul] at h
        rw [List.length_drop]
        omega

/-- Data that fits one payload is one payload. -/
theorem splitPayload_of_le (max cuts : Nat) (data : List Byte) (h : data.length ≤ max) :
    splitPayload max cuts data = [data] := by
  cases cuts with
  | zero => rfl
  | succ n => rw [splitPayload, if_pos h]

theorem sha1HashPayloads_flatten (maxPayload : Nat) (data : List Byte) : (sha1HashPayloads maxPayload data).flatten = data :=
  splitPayload_flatten _ _ _

theorem sha1HashPayloads_of_le (maxPayload : Nat) (data : List Byte) (h : data.length ≤ maxPayload) :
    sha1HashPayloads maxPayload data = [data] :=
  splitPayload_of_le _ _ _ h

/-- Every payload fits, where one byte fits or there is no data. -/
theorem sha1HashPayloads_fits (maxPayload : Nat) (data : List Byte) (h : 0 < maxPayload ∨ data = []) :
    ∀ p ∈ sha1HashPayloads maxPayload data, p.length ≤ maxPayload := by
  refine splitPayload_fits _ _ _ ?_
  rcases h with h | rfl
  · rw [Nat.mul_comm]
    exact Nat.le_of_lt (Nat.lt_mul_div_succ _ h)
  · exact Nat.zero_le _

/-- Some frame spells each command of `SHA1_HASH`, whatever the data's length. -/
theorem sha1HashCommands_wellFormed (maxPayload : Nat) (data : List Byte) (h : 0 < maxPayload ∨ data = []) :
    ∀ i ∈ sha1HashCommands maxPayload data, i.wellFormed maxPayload = true := by
  intro i hi
  rw [sha1HashCommands, List.mem_append, List.mem_cons, List.mem_map] at hi
  rcases hi with (rfl | ⟨p, hp, rfl⟩) | hi
  · exact (wellFormed_iff _ _).2 ⟨Nat.zero_le _, rfl⟩
  · exact (wellFormed_iff _ _).2 ⟨sha1HashPayloads_fits maxPayload data h p hp, rfl⟩
  · simp only [List.mem_cons, List.not_mem_nil, or_false] at hi
    rcases hi with rfl | rfl <;> exact (wellFormed_iff _ _).2 ⟨Nat.zero_le _, rfl⟩

end Sys2Proof
end

