-- ==== Sys2Proof/Laws/Sha1.lean ====
section
/-! SUPPORT. What finalizing a context does, said once (44_sha1_engine.md R193, R202, R203). -/

namespace Sys2Proof.Machine

/-- The padding byte count for every `BUFLEN` below 64 (R193). -/
theorem paddingByteCount_cases (l : Nat) (hl : l < 64) :
    (l ≤ 55 ∧ paddingByteCount l = 56 - l) ∨ (56 ≤ l ∧ paddingByteCount l = 120 - l) := by
  generalize hn : paddingByteCount l = n
  unfold paddingByteCount at hn
  simp only at hn
  split at hn
  · omega
  · split at hn <;> omega

theorem padding_length (l : Nat) (hl : l < 64) (m : BitVec 64) :
    (padding l m).length = paddingByteCount l + 8 := by
  have := paddingByteCount_cases l hl
  rw [padding, List.cons_append, List.length_cons, List.length_append, List.length_replicate, be64Bytes_length]
  omega

/-- The buffered bytes and the padding fill whole blocks (R202, R203). -/
theorem buflen_add_padding (l : Nat) (hl : l < 64) (m : BitVec 64) : (l + (padding l m).length) % 64 = 0 := by
  have := paddingByteCount_cases l hl
  rw [padding_length l hl]
  omega

/-! ### The state after finalizing -/

theorem finalizeContext_phase (s : State) : s.finalizeContext.phase = .finalized := setPhase_phase _ _

theorem finalizeContext_msglen (s : State) : s.finalizeContext.msglen = s.msglen := by
  rw [State.finalizeContext, setPhase_msglen, absorb_msglen]
  rfl

/-- Finalizing hashes the buffered bytes and the padding (R202). -/
theorem finalizeContext_h (s : State) (hl : s.buflen.val < 64) :
    s.finalizeContext.h = hashBlocks s.h (memRead s.buf 0 s.buflen.val ++ padding s.buflen.val s.msglen) := by
  rw [State.finalizeContext, setPhase_h]
  exact (absorb_absorbed _ _ _ _ _ (absorbed_self s hl)).h

/-- Finalizing leaves the buffer empty (R202). -/
theorem finalizeContext_buflen (s : State) (hl : s.buflen.val < 64) : s.finalizeContext.buflen = 0 := by
  rw [State.finalizeContext, setPhase_buflen]
  apply Fin.ext
  rw [(absorb_absorbed _ _ _ _ _ (absorbed_self s hl)).buflen, List.length_append,
    memRead_length s.buf 0 s.buflen.val (by omega), buflen_add_padding _ hl]
  rfl

/-- Finalizing leaves the buffer zero (R202). -/
theorem finalizeContext_buf (s : State) (hl : s.buflen.val < 64) :
    s.finalizeContext.buf = Vector.replicate 64 0 := by
  have hp := paddingByteCount_cases _ hl
  have hlen := padding_length s.buflen.val hl s.msglen
  have hz := absorb_tailZero_of_full s (padding s.buflen.val s.msglen) false hl (by omega)
  have hb := finalizeContext_buflen s hl
  rw [State.finalizeContext, setPhase_buflen] at hb
  rw [TailZero, hb] at hz
  rw [State.finalizeContext, setPhase_buf, hz]
  exact toBuffer_nil

/-- Every register that finalizing does not write. -/
theorem finalizeContext_same (s : State) : SameAes s s.finalizeContext ∧ SameTrButCompress s s.finalizeContext ∧
    s.finalizeContext.hostIn = s.hostIn ∧ s.finalizeContext.response = s.response := by
  have h := absorb_frame s (padding s.buflen.val s.msglen) false
  refine ⟨⟨?_, ?_⟩, ?_, ?_, ?_⟩
  · rw [State.finalizeContext, setPhase_rks, h.rks]
  · rw [State.finalizeContext, setPhase_rksValid, h.rksValid]
  · have := h.tr
    simp only [SameTrButCompress, State.finalizeContext, setPhase_tr] at this ⊢
    exact this
  · rw [State.finalizeContext, setPhase_hostIn, h.hostIn]
  · rw [State.finalizeContext, setPhase_response, h.response]

/-! ### The context holds a message (R34) -/

/-- A context that holds `m` has absorbed `m` from the initial value. -/
theorem absorbed_of_contextHolds (s : State) (m : List Byte) (h : ContextHolds s m) : Absorbed sha1Iv m s := by
  obtain ⟨hh, hb, hl, -⟩ := h
  refine ⟨hh, hl, ?_⟩
  have hlen := leftover_length m
  rw [hb, paddedBuffer, hl, ← hlen, memRead_toBuffer _ (by omega)]

theorem tailZero_of_contextHolds (s : State) (m : List Byte) (h : ContextHolds s m) : TailZero s := by
  have ha := (absorbed_of_contextHolds s m h).buf
  rw [TailZero, ha]
  exact h.2.1

/-- A fresh context holds the empty message (R34). -/
theorem contextHolds_createContext (s : State) : ContextHolds s.createContext [] := by
  refine ⟨?_, ?_, ?_, ?_⟩
  · rw [createContext_h, hashBlocks_of_lt _ _ (by decide)]
  · rw [createContext_buf, leftover_of_lt _ (by decide), paddedBuffer, toBuffer_nil]
  · rw [createContext_buflen]
    rfl
  · rw [createContext_msglen]
    rfl

/-- Adding data to a context that holds `m` makes it hold `m` and the data (R34). -/
theorem contextHolds_absorb (s : State) (m data : List Byte) (h : ContextHolds s m) :
    ContextHolds (s.absorb data true) (m ++ data) := by
  have ha := absorb_absorbed sha1Iv m data s true (absorbed_of_contextHolds s m h)
  have hz := absorb_tailZero s data true (tailZero_of_contextHolds s m h)
  refine ⟨ha.h, ?_, ha.buflen, ?_⟩
  · rw [hz, ha.buf, paddedBuffer]
  · rw [absorb_msglen, if_pos rfl, h.2.2.2, List.length_append, BitVec.ofNat_add]

/-- The padded message is the message, the padding of its rest, and nothing more (R202, R208). -/
theorem paddedMessage_eq (m : List Byte) :
    paddedMessage m = m ++ padding (m.length % 64) (BitVec.ofNat 64 m.length) := by
  have hc := paddingByteCount_cases (m.length % 64) (by omega)
  have hz : paddingByteCount (m.length % 64) - 1 = (119 - m.length % 64) % 64 := by omega
  rw [paddedMessage, padding, hz, List.append_assoc]

/-- The length of the padded message in blocks (R208). -/
theorem paddedMessage_length (m : List Byte) : (paddedMessage m).length = 64 * ((m.length + 8) / 64 + 1) := by
  have hc := paddingByteCount_cases (m.length % 64) (by omega)
  rw [paddedMessage_eq, List.length_append, padding_length _ (by omega)]
  omega

/-- Finalizing a context that holds `m` gives the hash of the padded `m` (R202, R208). -/
theorem finalizeContext_h_of_contextHolds (s : State) (m : List Byte) (h : ContextHolds s m) :
    s.finalizeContext.h = hashBlocks sha1Iv (paddedMessage m) := by
  have hl := h.2.2.1
  rw [State.finalizeContext, setPhase_h, paddedMessage_eq, ← hl, ← h.2.2.2]
  exact (absorb_absorbed sha1Iv m _ s false (absorbed_of_contextHolds s m h)).h

/-! ### The invariants look at few registers -/

theorem scheduleInv_of_same (s t : State) (h : SameAes s t) (hs : ScheduleInv s) : ScheduleInv t := by
  intro hv
  rw [h.2] at hv
  rw [h.1]
  exact hs hv

theorem createdInv_of_same (s t : State) (h : SameSha s t) (hs : CreatedInv s) : CreatedInv t := by
  obtain ⟨hh, hb, hl, hm, hp⟩ := h
  intro hc
  rw [hp] at hc
  obtain ⟨m, h1, h2, h3, h4⟩ := hs hc
  exact ⟨m, hh.trans h1, hb.trans h2, by rw [hl, h3], hm.trans h4⟩

theorem finalizedInv_of_same (s t : State) (h : SameSha s t) (hs : FinalizedInv s) : FinalizedInv t := by
  obtain ⟨hh, hb, hl, hm, hp⟩ := h
  intro hc
  rw [hp] at hc
  obtain ⟨m, h1, h2, h3, h4⟩ := hs hc
  exact ⟨m, hh.trans h1, hb.trans h2, hl.trans h3, hm.trans h4⟩

end Sys2Proof.Machine
end

