-- ==== Sys2Proof/Laws/Step.lean ====
section
/-! SUPPORT. What one step can do, said once: its cases, and the cases of every command. -/

namespace Sys2Proof.Machine

/-! ### The step -/

/-- `s` with its port set to the bytes after the frame taken. -/
theorem fetch_eq (s : State) : s.fetch = (splitFrame s.hostIn).map fun p => (p.1, { s with hostIn := p.2 }) := by
  unfold State.fetch
  cases splitFrame s.hostIn <;> rfl

theorem step_of_none (s : State) (h : splitFrame s.hostIn = none) : step s = .next s := by
  simp only [step, fetch_eq, h, Option.map_none]

theorem step_of_some (s : State) (f : Frame) (rest : List Byte) (h : splitFrame s.hostIn = some (f, rest)) :
    step s = answer f { s with hostIn := rest } := by
  simp only [step, fetch_eq, h, Option.map_some]

theorem answer_of_ok (f : Frame) (i : Instr) (s : State) (h : decodeFrame f = .ok i) : answer f s = exec i s := by
  simp only [answer, h]

theorem answer_of_error (f : Frame) (e : DecodeError) (s : State) (h : decodeFrame f = .error e) :
    answer f s = .next (s.setResponse { status := .illegalCommand, payload := [] }) := by
  simp only [answer, h, raise_eq]

/-! ### The commands, case by case -/

theorem blockOperand_of_eq (p : List Byte) (h : p.length = 16) : blockOperand p = some (toBlock p) := if_pos h

theorem blockOperand_of_ne (p : List Byte) (h : p.length ≠ 16) : blockOperand p = none := if_neg h

theorem ecbOperand_of_eq (p : List Byte) (h : p.length % 16 = 0) : ecbOperand p = some (p.length / 16) := if_pos h

theorem ecbOperand_of_ne (p : List Byte) (h : p.length % 16 ≠ 0) : ecbOperand p = none := if_neg h

/-- `AES_EXPAND` with 16 bytes (R130). -/
theorem exec_aesExpand_ok (key : List Byte) (s : State) (h : key.length = 16) :
    exec (.aesExpand key) s = .next ((s.latchSchedule (expandKey (toBlock key))).setResponse
      { status := .ok, payload := bytesOf (expandKey (toBlock key)) }) := by
  simp only [exec, execAesExpand, blockOperand_of_eq key h, respond_eq]

/-- `AES_EXPAND` with another length (R131). -/
theorem exec_aesExpand_error (key : List Byte) (s : State) (h : key.length ≠ 16) :
    exec (.aesExpand key) s = .next (s.setResponse { status := .unsupportedKeySize, payload := [] }) := by
  simp only [exec, execAesExpand, blockOperand_of_ne key h, raise_eq]

/-- `AES_ENC_BLOCK` with a schedule (R150). -/
theorem exec_aesEncBlock_ok (block : List Byte) (s : State) (h : block.length = 16) (hv : s.rksValid = true) :
    exec (.aesEncBlock block) s = .next (s.dropCipherRegs.setResponse
      { status := .ok, payload := bytesOf (encryptBlock s.rks (toBlock block)) }) := by
  simp only [exec, execAesEncBlock, blockOperand_of_eq block h, hasSchedule_eq, hv, if_true, respond_eq]

/-- `AES_ENC_BLOCK` without a schedule (R150). -/
theorem exec_aesEncBlock_sequence (block : List Byte) (s : State) (h : block.length = 16) (hv : s.rksValid = false) :
    exec (.aesEncBlock block) s = .next (s.setResponse { status := .sequenceError, payload := [] }) := by
  simp only [exec, execAesEncBlock, blockOperand_of_eq block h, hasSchedule_eq, hv, Bool.false_eq_true, if_false,
    raise_eq]

/-- `AES_ENC_BLOCK` with a payload that no frame gives it (R78, log 10). -/
theorem exec_aesEncBlock_illegal (block : List Byte) (s : State) (h : block.length ≠ 16) :
    exec (.aesEncBlock block) s = .next (s.setResponse { status := .illegalCommand, payload := [] }) := by
  simp only [exec, execAesEncBlock, blockOperand_of_ne block h, raise_eq]

/-- `AES_ENC_ECB` with a schedule and whole blocks (R151). -/
theorem exec_aesEncEcb_ok (data : List Byte) (s : State) (h : data.length % 16 = 0) (hv : s.rksValid = true) :
    exec (.aesEncEcb data) s = .next (s.dropCipherRegs.setResponse
      { status := .ok, payload := encryptEcb s.rks (data.length / 16) data }) := by
  simp only [exec, execAesEncEcb, ecbOperand_of_eq data h, hasSchedule_eq, hv, if_true, respond_eq]

/-- `AES_ENC_ECB` with a schedule and another length (R152). -/
theorem exec_aesEncEcb_length (data : List Byte) (s : State) (h : data.length % 16 ≠ 0) (hv : s.rksValid = true) :
    exec (.aesEncEcb data) s = .next (s.setResponse { status := .invalidBlockLength, payload := [] }) := by
  simp only [exec, execAesEncEcb, ecbOperand_of_ne data h, hasSchedule_eq, hv, if_true, raise_eq]

/-- `AES_ENC_ECB` without a schedule (R151, R227). -/
theorem exec_aesEncEcb_sequence (data : List Byte) (s : State) (hv : s.rksValid = false) :
    exec (.aesEncEcb data) s = .next (s.setResponse { status := .sequenceError, payload := [] }) := by
  simp only [exec, execAesEncEcb, hasSchedule_eq, hv, Bool.false_eq_true, if_false, raise_eq]

/-- `SHA1_CREATE` (R200). -/
theorem exec_sha1Create (s : State) :
    exec .sha1Create s = .next (s.createContext.setResponse { status := .ok, payload := [] }) := by
  simp only [exec, execSha1Create, respond_eq]

/-- `SHA1_ADD_DATA` in phase `Created` (R201). -/
theorem exec_sha1AddData_ok (data : List Byte) (s : State) (h : s.phase = .created) :
    exec (.sha1AddData data) s = .next ((s.absorb data true).setResponse { status := .ok, payload := [] }) := by
  simp only [exec, execSha1AddData, (acceptsData_iff s).2 h, if_true, respond_eq]

/-- `SHA1_ADD_DATA` outside phase `Created` (R205). -/
theorem exec_sha1AddData_sequence (data : List Byte) (s : State) (h : s.phase ≠ .created) :
    exec (.sha1AddData data) s = .next (s.setResponse { status := .sequenceError, payload := [] }) := by
  have hn : ¬ s.acceptsData = true := fun e => h ((acceptsData_iff s).1 e)
  simp only [exec, execSha1AddData, if_neg hn, raise_eq]

/-- `SHA1_FINALIZE` in phase `Created` (R202). -/
theorem exec_sha1Finalize_ok (s : State) (h : s.phase = .created) :
    exec .sha1Finalize s = .next (s.finalizeContext.setResponse { status := .ok, payload := [] }) := by
  simp only [exec, execSha1Finalize, (acceptsData_iff s).2 h, if_true, respond_eq]

/-- `SHA1_FINALIZE` outside phase `Created` (R205). -/
theorem exec_sha1Finalize_sequence (s : State) (h : s.phase ≠ .created) :
    exec .sha1Finalize s = .next (s.setResponse { status := .sequenceError, payload := [] }) := by
  have hn : ¬ s.acceptsData = true := fun e => h ((acceptsData_iff s).1 e)
  simp only [exec, execSha1Finalize, if_neg hn, raise_eq]

/-- `SHA1_DIGEST` in phase `Finalized` (R204). -/
theorem exec_sha1Digest_ok (s : State) (h : s.phase = .finalized) :
    exec .sha1Digest s = .next (s.setResponse { status := .ok, payload := digestBytes s.h }) := by
  simp only [exec, execSha1Digest, (hasDigest_iff s).2 h, if_true, respond_eq]

/-- `SHA1_DIGEST` outside phase `Finalized` (R205). -/
theorem exec_sha1Digest_sequence (s : State) (h : s.phase ≠ .finalized) :
    exec .sha1Digest s = .next (s.setResponse { status := .sequenceError, payload := [] }) := by
  have hn : ¬ s.hasDigest = true := fun e => h ((hasDigest_iff s).1 e)
  simp only [exec, execSha1Digest, if_neg hn, raise_eq]

/-- Everything a command can do: it is answered with an error and changes nothing but the response, or it is one of the seven
effects, under the condition the spec gives it. -/
inductive ExecCase : Instr → State → State → Prop
  | error (i : Instr) (s : State) (e : Status) (he : e ≠ .ok)
      (why : (e = .unsupportedKeySize ∧ ∃ key, i = .aesExpand key ∧ key.length ≠ 16) ∨
        (e = .invalidBlockLength ∧ s.rksValid = true ∧ ∃ data, i = .aesEncEcb data ∧ data.length % 16 ≠ 0) ∨
        (e = .illegalCommand ∧ ∃ block, i = .aesEncBlock block ∧ block.length ≠ 16) ∨
        (e = .sequenceError ∧ MissesState i s)) :
      ExecCase i s (s.setResponse { status := e, payload := [] })
  | aesExpand (key : List Byte) (s : State) (h : key.length = 16) :
      ExecCase (.aesExpand key) s ((s.latchSchedule (expandKey (toBlock key))).setResponse
        { status := .ok, payload := bytesOf (expandKey (toBlock key)) })
  | aesEncBlock (block : List Byte) (s : State) (h : block.length = 16) (hv : s.rksValid = true) :
      ExecCase (.aesEncBlock block) s (s.dropCipherRegs.setResponse
        { status := .ok, payload := bytesOf (encryptBlock s.rks (toBlock block)) })
  | aesEncEcb (data : List Byte) (s : State) (h : data.length % 16 = 0) (hv : s.rksValid = true) :
      ExecCase (.aesEncEcb data) s (s.dropCipherRegs.setResponse
        { status := .ok, payload := encryptEcb s.rks (data.length / 16) data })
  | sha1Create (s : State) :
      ExecCase .sha1Create s (s.createContext.setResponse { status := .ok, payload := [] })
  | sha1AddData (data : List Byte) (s : State) (h : s.phase = .created) :
      ExecCase (.sha1AddData data) s ((s.absorb data true).setResponse { status := .ok, payload := [] })
  | sha1Finalize (s : State) (h : s.phase = .created) :
      ExecCase .sha1Finalize s (s.finalizeContext.setResponse { status := .ok, payload := [] })
  | sha1Digest (s : State) (h : s.phase = .finalized) :
      ExecCase .sha1Digest s (s.setResponse { status := .ok, payload := digestBytes s.h })

/-- Every command answers a next state, and it is one of the cases. -/
theorem exec_cases (i : Instr) (s : State) : ∃ t, exec i s = .next t ∧ ExecCase i s t := by
  cases i with
  | aesExpand key =>
    by_cases h : key.length = 16
    · exact ⟨_, exec_aesExpand_ok key s h, .aesExpand key s h⟩
    · exact ⟨_, exec_aesExpand_error key s h, .error _ s _ (by decide) (.inl ⟨rfl, key, rfl, h⟩)⟩
  | aesEncBlock block =>
    by_cases h : block.length = 16
    · cases hv : s.rksValid with
      | true => exact ⟨_, exec_aesEncBlock_ok block s h hv, .aesEncBlock block s h hv⟩
      | false =>
        exact ⟨_, exec_aesEncBlock_sequence block s h hv, .error _ s _ (by decide) (.inr (.inr (.inr ⟨rfl, hv⟩)))⟩
    · exact ⟨_, exec_aesEncBlock_illegal block s h,
        .error _ s _ (by decide) (.inr (.inr (.inl ⟨rfl, block, rfl, h⟩)))⟩
  | aesEncEcb data =>
    cases hv : s.rksValid with
    | true =>
      by_cases h : data.length % 16 = 0
      · exact ⟨_, exec_aesEncEcb_ok data s h hv, .aesEncEcb data s h hv⟩
      · exact ⟨_, exec_aesEncEcb_length data s h hv, .error _ s _ (by decide) (.inr (.inl ⟨rfl, hv, data, rfl, h⟩))⟩
    | false => exact ⟨_, exec_aesEncEcb_sequence data s hv, .error _ s _ (by decide) (.inr (.inr (.inr ⟨rfl, hv⟩)))⟩
  | sha1Create => exact ⟨_, exec_sha1Create s, .sha1Create s⟩
  | sha1AddData data =>
    by_cases h : s.phase = .created
    · exact ⟨_, exec_sha1AddData_ok data s h, .sha1AddData data s h⟩
    · exact ⟨_, exec_sha1AddData_sequence data s h, .error _ s _ (by decide) (.inr (.inr (.inr ⟨rfl, h⟩)))⟩
  | sha1Finalize =>
    by_cases h : s.phase = .created
    · exact ⟨_, exec_sha1Finalize_ok s h, .sha1Finalize s h⟩
    · exact ⟨_, exec_sha1Finalize_sequence s h, .error _ s _ (by decide) (.inr (.inr (.inr ⟨rfl, h⟩)))⟩
  | sha1Digest =>
    by_cases h : s.phase = .finalized
    · exact ⟨_, exec_sha1Digest_ok s h, .sha1Digest s h⟩
    · exact ⟨_, exec_sha1Digest_sequence s h, .error _ s _ (by decide) (.inr (.inr (.inr ⟨rfl, h⟩)))⟩

/-- A command that answers `t` does so by one of the cases. -/
theorem execCase_of_next (i : Instr) (s t : State) (h : exec i s = .next t) : ExecCase i s t := by
  obtain ⟨u, hu, hc⟩ := exec_cases i s
  rw [h] at hu
  cases hu
  exact hc

/-- Everything a step can do: CORE waits; the frame at its port spells no command and is answered `IllegalCommand`; or the
command it spells is answered, by one of the command's cases. -/
theorem step_cases (s t : State) (h : step s = .next t) :
    (splitFrame s.hostIn = none ∧ t = s) ∨
    (∃ f rest e, splitFrame s.hostIn = some (f, rest) ∧ decodeFrame f = .error e ∧
      t = ({ s with hostIn := rest } : State).setResponse { status := .illegalCommand, payload := [] }) ∨
    ∃ i rest, decode s.hostIn = .ok (i, rest) ∧ ExecCase i { s with hostIn := rest } t := by
  cases hs : splitFrame s.hostIn with
  | none =>
    rw [step_of_none s hs] at h
    cases h
    exact .inl ⟨rfl, rfl⟩
  | some p =>
    obtain ⟨f, rest⟩ := p
    rw [step_of_some s f rest hs] at h
    cases hd : decodeFrame f with
    | error e =>
      rw [answer_of_error f e _ hd] at h
      cases h
      exact .inr (.inl ⟨f, rest, e, rfl, hd, rfl⟩)
    | ok i =>
      rw [answer_of_ok f i _ hd] at h
      exact .inr (.inr ⟨i, rest, (decode_ok_iff _ _ _).2 ⟨f, hs, hd⟩, execCase_of_next _ _ _ h⟩)

/-- A run of commands whose first one answers. -/
theorem execAll_cons (i : Instr) (is : List Instr) (s t : State) (h : exec i s = .next t) :
    execAll (i :: is) s = execAll is t := by
  simp only [execAll, h]

theorem execAll_nil (s : State) : execAll [] s = .next s := rfl

end Sys2Proof.Machine
end

