-- ==== Sys2Proof/Laws/Frames.lean ====
section
/-! SUPPORT. Which registers a command's answer depends on, and what adding parts in a row does (60_exceptions.md R222,
30_encoding.md R86, 44_sha1_engine.md R206). -/

namespace Sys2Proof.Machine

/-- Finalizing reads and writes the SHA-1 registers alone (R86). -/
theorem sameContext_finalize (s t : State) (h : SameContext s t) : SameContext s.finalizeContext t.finalizeContext := by
  have := absorb_sameContext s t (padding s.buflen.val s.msglen) false h
  obtain ⟨h1, h2, h3, h4⟩ := this
  refine ⟨?_, ?_, ?_, ?_⟩
  all_goals simp only [State.finalizeContext, h.buflen, h.msglen, setPhase_h, setPhase_buf, setPhase_buflen,
    setPhase_msglen, h1, h2, h3, h4]

/-- Finalizing does not look at the response port. -/
theorem finalizeContext_setResponse (s : State) (r : Response) :
    (s.setResponse r).finalizeContext = s.finalizeContext.setResponse r := by
  rw [State.finalizeContext, setResponse_buflen, setResponse_msglen, absorb_setResponse, State.finalizeContext]
  rfl

/-- Setting the response port twice leaves the later response. -/
theorem setResponse_setResponse (s : State) (r q : Response) : (s.setResponse r).setResponse q = s.setResponse q := rfl

/-- No command looks at the response port (R222 c). -/
theorem exec_setResponse (i : Instr) (s : State) (r : Response) : exec i (s.setResponse r) = exec i s := by
  obtain ⟨t, ht, hc⟩ := exec_cases i s
  rw [ht]
  cases hc with
  | error _ _ e he why =>
    rcases why with ⟨rfl, k, rfl, hk⟩ | ⟨rfl, hv, d, rfl, hk⟩ | ⟨rfl, b, rfl, hb⟩ | ⟨rfl, hms⟩
    · rw [exec_aesExpand_error _ _ hk, setResponse_setResponse]
    · rw [exec_aesEncEcb_length _ (s.setResponse r) hk hv, setResponse_setResponse]
    · rw [exec_aesEncBlock_illegal _ _ hb, setResponse_setResponse]
    · cases i with
      | aesExpand => exact hms.elim
      | aesEncBlock b =>
        by_cases hb : b.length = 16
        · rw [exec_aesEncBlock_sequence _ (s.setResponse r) hb hms, setResponse_setResponse]
        · rw [exec_aesEncBlock_illegal _ _ hb] at ht
          have := congrArg (fun o => match o with | Host.Outcome.next t => t.response | _ => none) ht
          simp at this
      | aesEncEcb d => rw [exec_aesEncEcb_sequence _ (s.setResponse r) hms, setResponse_setResponse]
      | sha1Create => exact hms.elim
      | sha1AddData d => rw [exec_sha1AddData_sequence _ (s.setResponse r) hms, setResponse_setResponse]
      | sha1Finalize => rw [exec_sha1Finalize_sequence (s.setResponse r) hms, setResponse_setResponse]
      | sha1Digest => rw [exec_sha1Digest_sequence (s.setResponse r) hms, setResponse_setResponse]
  | aesExpand key _ hl => rw [exec_aesExpand_ok _ _ hl]; rfl
  | aesEncBlock b _ hl hv => rw [exec_aesEncBlock_ok _ (s.setResponse r) hl hv, setResponse_rks]; rfl
  | aesEncEcb b _ hl hv => rw [exec_aesEncEcb_ok _ (s.setResponse r) hl hv, setResponse_rks]; rfl
  | sha1Create => rw [exec_sha1Create]; rfl
  | sha1AddData d _ hp => rw [exec_sha1AddData_ok _ (s.setResponse r) hp, absorb_setResponse, setResponse_setResponse]
  | sha1Finalize _ hp => rw [exec_sha1Finalize_ok (s.setResponse r) hp, finalizeContext_setResponse, setResponse_setResponse]
  | sha1Digest _ hp => rw [exec_sha1Digest_ok (s.setResponse r) hp, setResponse_h, setResponse_setResponse]

/-- Adding parts one after the other, then running what follows: the context holds what it held and the parts behind it, the
phase and the schedule stay (R201, R206). -/
theorem execAll_addData (is : List Instr) : ∀ (parts : List (List Byte)) (s : State) (m : List Byte),
    s.phase = .created → ContextHolds s m →
    ∃ t, execAll (parts.map Instr.sha1AddData ++ is) s = execAll is t ∧ t.phase = .created ∧
      ContextHolds t (m ++ parts.flatten) ∧ SameAes s t := by
  intro parts
  induction parts with
  | nil =>
    intro s m hp hc
    exact ⟨s, rfl, hp, by rwa [List.flatten_nil, List.append_nil], rfl, rfl⟩
  | cons a parts ih =>
    intro s m hp hc
    have hf := absorb_frame s a true
    have hp1 : ((s.absorb a true).setResponse { status := .ok, payload := [] }).phase = .created := by
      rw [setResponse_phase, hf.phase, hp]
    obtain ⟨t, ht, hpt, hct, hk, hv⟩ := ih _ (m ++ a) hp1 (contextHolds_absorb s m a hc)
    refine ⟨t, ?_, hpt, ?_, ?_, ?_⟩
    · rw [List.map_cons, List.cons_append, execAll_cons _ _ _ _ (exec_sha1AddData_ok a s hp), ht]
    · rwa [List.flatten_cons, ← List.append_assoc]
    · rw [hk, setResponse_rks, hf.rks]
    · rw [hv, setResponse_rksValid, hf.rksValid]

end Sys2Proof.Machine
end

