-- ==== Sys2Proof/Laws/Galois.lean ====
section
/-! SUPPORT. The laws of the field arithmetic (40_galois_field.md R101, R105): Xtime and Multiply are linear. -/

namespace Sys2Proof.Machine

theorem xor_left_comm (a b c : Byte) : a ^^^ (b ^^^ c) = b ^^^ (a ^^^ c) := by
  rw [← BitVec.xor_assoc, ← BitVec.xor_assoc, BitVec.xor_comm a b]

/-- `Xtime` as one expression: the shift, and the reduction where bit 7 was set (R101). -/
theorem xtime_eq (a : Byte) : xtime a = (a <<< 1) ^^^ (if a.getLsbD 7 then 0x1B else 0) := by
  unfold xtime
  split <;> simp

/-- `Xtime` is linear (R101). -/
theorem xtime_xor (a b : Byte) : xtime (a ^^^ b) = xtime a ^^^ xtime b := by
  simp only [xtime_eq, BitVec.shiftLeft_xor_distrib, BitVec.getLsbD_xor]
  cases a.getLsbD 7 <;> cases b.getLsbD 7 <;> simp [BitVec.xor_assoc, BitVec.xor_comm, xor_left_comm]

@[simp] theorem xtime_zero : xtime 0 = 0 := by decide

/-- The loop of `Multiply` is linear in the second operand (R105). -/
theorem multiplyFrom_xor_right (b c : Byte) : ∀ (n i : Nat) (t r r' : Byte),
    multiplyFrom (b ^^^ c) n i t (r ^^^ r') = multiplyFrom b n i t r ^^^ multiplyFrom c n i t r' := by
  intro n
  induction n with
  | zero => intros; rfl
  | succ n ih =>
    intro i t r r'
    simp only [multiplyFrom, ← ih, BitVec.getLsbD_xor]
    congr 1
    cases b.getLsbD i <;> cases c.getLsbD i <;>
      simp [BitVec.xor_assoc, BitVec.xor_comm, xor_left_comm]

/-- `Multiply` distributes over `XOR` on the right (R105). -/
theorem multiply_xor_right (a b c : Byte) : multiply a (b ^^^ c) = multiply a b ^^^ multiply a c :=
  multiplyFrom_xor_right b c 8 0 a 0 0

/-- The loop of `Multiply` is linear in the first operand (R105). -/
theorem multiplyFrom_xor_left (b : Byte) : ∀ (n i : Nat) (t t' r r' : Byte),
    multiplyFrom b n i (t ^^^ t') (r ^^^ r') = multiplyFrom b n i t r ^^^ multiplyFrom b n i t' r' := by
  intro n
  induction n with
  | zero => intros; rfl
  | succ n ih =>
    intro i t t' r r'
    simp only [multiplyFrom, ← ih, xtime_xor]
    congr 1
    cases b.getLsbD i <;> simp [BitVec.xor_assoc, BitVec.xor_comm, xor_left_comm]

/-- `Multiply` distributes over `XOR` on the left (R105). -/
theorem multiply_xor_left (a b c : Byte) : multiply (a ^^^ b) c = multiply a c ^^^ multiply b c :=
  multiplyFrom_xor_left c 8 0 a b 0 0

end Sys2Proof.Machine
end

