-- ==== Sys2Proof/Laws/KeySchedule.lean ====
section
/-! SUPPORT. What the word steps of ExpandKey do, and the recurrence they leave (41_aes_key_schedule.md R124, R125). -/

namespace Sys2Proof.Machine

/-- The word a step writes (R124). -/
def keyWord (k : KeyRegs) : AesWord :=
  wordXor (wordAt k.rks (k.ksP - 16))
    (if k.ksP % 16 = 0 then keyCore (wordAt k.rks (k.ksP - 4)) k.ksRi else wordAt k.rks (k.ksP - 4))

/-- A step writes one word at `KS_P`, advances `KS_P` by 4, and `KS_RI` at a round boundary (R124). -/
theorem keyStep_eq (k : KeyRegs) : keyStep k =
    { rks := memWrite k.rks k.ksP (wordBytes (keyWord k)), ksP := k.ksP + 4
      ksRi := if k.ksP % 16 = 0 then k.ksRi + 1 else k.ksRi } := by
  unfold keyStep keyWord
  split <;> rfl

theorem keySteps_succ (n : Nat) (k : KeyRegs) : keySteps (n + 1) k = keyStep (keySteps n k) := by
  induction n generalizing k with
  | zero => rfl
  | succ n ih => exact ih (keyStep k)

/-- The registers after `n` steps of an expansion (R124, R125). -/
structure KeyRun (key : Block) (n : Nat) (k : KeyRegs) : Prop where
  ksP : k.ksP = 16 + 4 * n
  ksRi : k.ksRi = (16 + 4 * n + 15) / 16
  key : ∀ i, i < 16 → byteAt k.rks i = byteAt key i
  words : ∀ p, 16 ≤ p → p < 16 + 4 * n → p % 4 = 0 → wordAt k.rks p = wordXor (wordAt k.rks (p - 16))
    (if p % 16 = 0 then keyCore (wordAt k.rks (p - 4)) (p / 16) else wordAt k.rks (p - 4))

theorem keyRun_zero (key : Block) : KeyRun key 0 (keyStart key) where
  ksP := rfl
  ksRi := rfl
  key := by
    intro i hi
    rw [keyStart]
    simp only
    rw [byteAt_memWrite, if_pos ⟨by omega, by rw [bytesOf_length]; omega, by omega⟩, Nat.sub_zero, bytesOf_getD]
  words := by
    intro p h1 h2
    omega

theorem keyRun_succ (key : Block) (n : Nat) (k : KeyRegs) (hn : n < 40) (h : KeyRun key n k) :
    KeyRun key (n + 1) (keyStep k) := by
  have hp := h.ksP
  have hr := h.ksRi
  rw [keyStep_eq]
  refine ⟨?_, ?_, ?_, ?_⟩
  · simp only
    omega
  · simp only
    split <;> omega
  · intro i hi
    simp only
    rw [byteAt_memWrite_of_outside _ _ _ _ (by omega), h.key i hi]
  · intro p h1 h2 h4
    simp only
    rw [wordAt_memWrite_other _ _ (p - 16) _ (by omega), wordAt_memWrite_other _ _ (p - 4) _ (by omega)]
    by_cases hlt : p < 16 + 4 * n
    · rw [wordAt_memWrite_other _ _ p _ (by omega)]
      exact h.words p h1 hlt h4
    · have hpe : k.ksP = p := by omega
      have hri : p % 16 = 0 → k.ksRi = p / 16 := by omega
      rw [hpe, wordAt_memWrite_same _ _ _ (by omega), keyWord, hpe]
      by_cases h16 : p % 16 = 0
      · rw [if_pos h16, if_pos h16, hri h16]
      · rw [if_neg h16, if_neg h16]

theorem keyRun_steps (key : Block) : ∀ n, n ≤ 40 → KeyRun key n (keySteps n (keyStart key)) := by
  intro n
  induction n with
  | zero => exact fun _ => keyRun_zero key
  | succ n ih =>
    intro hn
    rw [keySteps_succ]
    exact keyRun_succ key n _ (by omega) (ih (by omega))

/-- Bytes 0..15 of the schedule are the key (R124, R127). -/
theorem byteAt_expandKey (key : Block) (i : Nat) (hi : i < 16) : byteAt (expandKey key) i = byteAt key i :=
  (keyRun_steps key 40 (by omega)).key i hi

/-- The response of a key expansion starts with the key (R127). -/
theorem take_expandKey (key : List Byte) (h : key.length = 16) : (bytesOf (expandKey (toBlock key))).take 16 = key := by
  have hl : ((bytesOf (expandKey (toBlock key))).take 16).length = 16 := by
    rw [List.length_take, bytesOf_length]
    rfl
  apply ext_getD _ _ (by rw [hl, h])
  intro i hi
  rw [hl] at hi
  rw [List.getD_eq_getElem?_getD, List.getElem?_take_of_lt hi, ← List.getD_eq_getElem?_getD, bytesOf_getD,
    byteAt_expandKey _ _ hi, byteAt_toBlock _ _ hi]

/-- The recurrence of the schedule words (R124, R125). -/
theorem wordAt_expandKey (key : Block) (p : Nat) (h1 : 16 ≤ p) (h2 : p ≤ 172) (h4 : p % 4 = 0) :
    wordAt (expandKey key) p = wordXor (wordAt (expandKey key) (p - 16))
      (if p % 16 = 0 then keyCore (wordAt (expandKey key) (p - 4)) (p / 16) else wordAt (expandKey key) (p - 4)) :=
  (keyRun_steps key 40 (by omega)).words p h1 (by omega) h4

end Sys2Proof.Machine
end

