-- ==== Sys2Proof/Laws/PerInstr.lean ====
section
/-! SUPPORT. Statements made for every command, one lemma per constructor of Instr. -/

namespace Sys2Proof.Laws.FrameLength

/-- A command is 5 + `LEN` bytes long in the serial form (R70), its first byte is its `OP` and its last `LEN` bytes are its
payload (R73). -/
def Statement (i : Instr) : Prop :=
  (encode i).length = 5 + i.payload.length ∧ (encode i).head? = some i.opcode.byte ∧ (encode i).drop 5 = i.payload

theorem aesExpand (key : List Byte) : Statement (.aesExpand key) :=
  ⟨frame_bytes_length _, rfl, rfl⟩

theorem aesEncBlock (block : List Byte) : Statement (.aesEncBlock block) :=
  ⟨frame_bytes_length _, rfl, rfl⟩

theorem aesEncEcb (data : List Byte) : Statement (.aesEncEcb data) :=
  ⟨frame_bytes_length _, rfl, rfl⟩

theorem sha1Create : Statement .sha1Create :=
  ⟨frame_bytes_length _, rfl, rfl⟩

theorem sha1AddData (data : List Byte) : Statement (.sha1AddData data) :=
  ⟨frame_bytes_length _, rfl, rfl⟩

theorem sha1Finalize : Statement .sha1Finalize :=
  ⟨frame_bytes_length _, rfl, rfl⟩

theorem sha1Digest : Statement .sha1Digest :=
  ⟨frame_bytes_length _, rfl, rfl⟩

end Sys2Proof.Laws.FrameLength
end

