-- ==== Sys2Proof/Tests/Slice0.lean ====
section
/-! SUPPORT. Tests with expected values from the spec, and for every obligation with hypotheses a witness that meets them. -/

namespace Sys2Proof.Tests

open Sys2Proof.Machine

/-! ### States to test on -/

/-- A concrete state: no schedule, no context, nothing at the ports. -/
def blank : State where
  rks := Vector.replicate 176 0
  rksValid := false
  h := sha1Iv
  buf := Vector.replicate 64 0
  buflen := 0
  msglen := 0
  phase := .none
  tr :=
    { st := Vector.replicate 16 0, ksP := 0, ksRi := 0, rnd := 0, w := Vector.replicate 80 0
      vars := { a := 0, b := 0, c := 0, d := 0, e := 0 }, t := 0 }
  freeCount := 0
  hostIn := []
  response := none

/-- The key of the source's AES vector (41_aes_key_schedule.md). -/
def key : List Byte :=
  [0x2b, 0x7e, 0x15, 0x16, 0x28, 0xae, 0xd2, 0xa6, 0xab, 0xf7, 0x15, 0x88, 0x09, 0xcf, 0x4f, 0x3c]

/-- The plaintext of the source's AES vector (42_aes_cipher.md R150). -/
def plain : List Byte :=
  [0x32, 0x43, 0xf6, 0xa8, 0x88, 0x5a, 0x30, 0x8d, 0x31, 0x31, 0x98, 0xa2, 0xe0, 0x37, 0x07, 0x34]

/-- Its ciphertext (42_aes_cipher.md R150). -/
def cipher : List Byte :=
  [0x39, 0x25, 0x84, 0x1d, 0x02, 0xdc, 0x09, 0xfb, 0xdc, 0x11, 0x85, 0x97, 0x19, 0x6a, 0x0b, 0x32]

/-- A state with the schedule of `key`. -/
def keyed : State := { blank with rks := expandKey (toBlock key), rksValid := true }

/-- A state with an empty context. -/
def created : State := { blank with phase := .created }

/-- A context that holds "abc" (44_sha1_engine.md R202). -/
def createdAbc : State :=
  { blank with phase := .created, buf := toBuffer [0x61, 0x62, 0x63], buflen := 3, msglen := 3 }

/-- A finalized context with the digest of "abc" (44_sha1_engine.md R204). -/
def finalizedAbc : State :=
  { blank with
    phase := .finalized
    h := { h0 := 0xA9993E36, h1 := 0x4706816A, h2 := 0xBA3E2571, h3 := 0x7850C26C, h4 := 0x9CD0D89D } }

/-- A field of the next state. -/
def after {α : Type} (o : Reply) (f : State → α) : Option α :=
  match o with
  | .next t => some (f t)
  | .fault _ => none
  | .refused _ => none

/-! ### Well-formedness: an ill-formed term for each check -/

/-- `AES_ENC_BLOCK` with 15 bytes (R74). -/
theorem test_wellFormed_refuses_short_block : (Instr.aesEncBlock (List.replicate 15 0)).wellFormed Config.maxLen = false := by decide

/-- `AES_ENC_BLOCK` with 17 bytes (R74). -/
theorem test_wellFormed_refuses_long_block : (Instr.aesEncBlock (List.replicate 17 0)).wellFormed Config.maxLen = false := by decide

/-- A payload longer than any `LEN` (R71). -/
theorem test_wellFormed_refuses_long_payload (data : List Byte) (h : data.length = 2 ^ 32) :
    (Instr.sha1AddData data).wellFormed Config.maxLen = false := by
  simp [Instr.wellFormed, Instr.lenFits, Instr.payload, h, Config.maxLen]

/-- A payload one byte longer than a small `MAX_PAYLOAD`, and one as long (R71). -/
theorem test_wellFormed_at_max_payload : (Instr.sha1AddData [1, 2, 3]).wellFormed 2 = false ∧
    (Instr.sha1AddData [1, 2, 3]).wellFormed 3 = true := by decide

theorem test_wellFormed_accepts_block : (Instr.aesEncBlock plain).wellFormed 16 = true := by decide

/-! ### Decoding: every command's word, written from R73 and R75 -/

theorem test_decode_aesExpand : decode ([0x10, 0, 0, 0, 16] ++ key) = .ok (.aesExpand key, []) := by decide

theorem test_decode_aesEncBlock : decode ([0x11, 0, 0, 0, 16] ++ plain) = .ok (.aesEncBlock plain, []) := by decide

theorem test_decode_aesEncEcb : decode [0x12, 0, 0, 0, 1, 0xFF, 0x20] = .ok (.aesEncEcb [0xFF], [0x20]) := by decide

theorem test_decode_sha1Create : decode [0x20, 0, 0, 0, 0] = .ok (.sha1Create, []) := by decide

theorem test_decode_sha1AddData :
    decode [0x21, 0, 0, 0, 3, 0x61, 0x62, 0x63] = .ok (.sha1AddData [0x61, 0x62, 0x63], []) := by decide

theorem test_decode_sha1Finalize : decode [0x22, 0, 0, 0, 0] = .ok (.sha1Finalize, []) := by decide

theorem test_decode_sha1Digest : decode [0x23, 0, 0, 0, 0] = .ok (.sha1Digest, []) := by decide

/-- `LEN` is big-endian (R73): 0x00000102 is 258 bytes, more than are there. -/
theorem test_decode_length_is_big_endian : decode [0x21, 0, 0, 1, 2, 0x61] = .error .incomplete := by decide

/-- The table's row for `AES_ENC_BLOCK` (log 7). -/
theorem test_table_row : decodeTableWord 8 0x11 = some (.aesEncBlock (List.replicate 16 0)) := by decide

/-- A table row is fetched and run by the next step (log 7). -/
theorem test_table_row_runs : after (step (blank.withFetchWord 8 0x20)) (fun t => (t.phase, t.hostIn)) =
    some (ShaPhase.created, []) := by decide

/-- The notation of R82. -/
theorem test_text : (Instr.sha1AddData [0x2b, 0x7e]).text = "SHA1_ADD_DATA 2b7e" := by decide

/-- R212: data longer than one payload is given in several, here with payloads of at most 4 bytes, cut as log 13 says. -/
theorem test_splitPayload : splitPayload 4 (9 / 4) [1, 2, 3, 4, 5, 6, 7, 8, 9] = [[1, 2, 3, 4], [5, 6, 7, 8], [9]] ∧
    splitPayload 4 (4 / 4) [1, 2, 3, 4] = [[1, 2, 3, 4]] := by decide

/-- R212: data that fits is the four commands; longer data has one `SHA1_ADD_DATA` more. -/
theorem test_sha1HashCommands :
    sha1HashCommands 2 [7, 8] = [.sha1Create, .sha1AddData [7, 8], .sha1Finalize, .sha1Digest] ∧
    sha1HashCommands 2 [7, 8, 9] = [.sha1Create, .sha1AddData [7, 8], .sha1AddData [9], .sha1Finalize, .sha1Digest] := by decide

/-! ### The field and the tables -/

/-- R101 and R105: the corner cases and the examples. -/
theorem test_field : [xtime 0x80, xtime 0x7F, xtime 0xFF, multiply 0x53 0xCA, multiply 0x80 0x80, multiply 0xFF 0xFF,
      multiply 0x57 0x83, multiply 0x57 0x13, multiplyByTables 0x80 0x80, multiplyByTables 1 0] =
    [0x1B, 0xFE, 0xE5, 0x01, 0x9A, 0x13, 0xC1, 0xFE, 0x9A, 0x00] := by decide +kernel

/-- R102, R103 and R107. -/
theorem test_tables : [sbox 0x00, sbox 0x53, sbox 0xCF, sbox 0xFF, invSbox 0x00, invSbox 0x8A, rcon 9, rcon 15] =
    [0x63, 0xED, 0x8A, 0x16, 0x52, 0xCF, 0x1B, 0x9A] := by decide +kernel

/-! ### One step of each command, with the spec's values -/

/-- R130: bytes 16..31 and 160..175 of the schedule of the source's key. -/
theorem test_aesExpand : after (exec (.aesExpand key) blank) (fun t => (t.rksValid, memRead t.rks 16 16, memRead t.rks 160 16)) =
    some (true,
      [0xa0, 0xfa, 0xfe, 0x17, 0x88, 0x54, 0x2c, 0xb1, 0x23, 0xa3, 0x39, 0x39, 0x2a, 0x6c, 0x76, 0x05],
      [0xd0, 0x14, 0xf9, 0xa8, 0xc9, 0xee, 0x25, 0x89, 0xe1, 0x3f, 0x0c, 0xc8, 0xb6, 0x63, 0x0c, 0xa6]) := by
  decide +kernel

/-- R131: a 24-byte key. -/
theorem test_aesExpand_unsupported : after (exec (.aesExpand (List.replicate 24 0)) keyed) (fun t => (t.rksValid, t.response)) =
    some (true, some { status := .unsupportedKeySize, payload := [] }) := by decide

/-- R150: the source's vector. -/
theorem test_aesEncBlock : after (exec (.aesEncBlock plain) keyed) (fun t => t.response) =
    some (some { status := .ok, payload := cipher }) := by decide +kernel

/-- R150: no schedule. -/
theorem test_aesEncBlock_sequence : after (exec (.aesEncBlock plain) blank) (fun t => t.response) =
    some (some { status := .sequenceError, payload := [] }) := by decide

/-- R151: the same block twice. -/
theorem test_aesEncEcb : after (exec (.aesEncEcb (plain ++ plain)) keyed) (fun t => t.response) =
    some (some { status := .ok, payload := cipher ++ cipher }) := by decide +kernel

/-- R227: no schedule and a length of 17, the schedule is judged first. -/
theorem test_aesEncEcb_priority : after (exec (.aesEncEcb (List.replicate 17 0)) blank) (fun t => t.response) =
    some (some { status := .sequenceError, payload := [] }) := by decide

/-- R200: the context is empty whatever was there. -/
theorem test_sha1Create : after (exec .sha1Create createdAbc) (fun t => (t.h, t.buf, t.buflen, t.msglen)) =
    some (sha1Iv, Vector.replicate 64 0, 0, 0) := by decide +kernel

/-- R201: 64 bytes 0x61 into an empty buffer. -/
theorem test_sha1AddData_full : after (exec (.sha1AddData (List.replicate 64 0x61)) created)
      (fun t => (t.h, t.buf, t.buflen, t.msglen)) =
    some ({ h0 := 0xDA4968EB, h1 := 0x2E377C1F, h2 := 0x884E8F52, h3 := 0x83524BEB, h4 := 0xE74EBDBD },
      Vector.replicate 64 0, 0, 64) := by decide +kernel

/-- R190: bytes are appended at the tail. -/
theorem test_sha1AddData_append : after (exec (.sha1AddData [0x64, 0x65]) createdAbc)
      (fun t => (t.h, memRead t.buf 0 7, t.buflen, t.msglen)) =
    some (sha1Iv, [0x61, 0x62, 0x63, 0x64, 0x65, 0, 0], 5, 5) := by decide +kernel

/-- R204: the digest of "abc" is reached by finalizing. -/
theorem test_sha1Finalize : after (exec .sha1Finalize createdAbc) (fun t => (t.h, t.buflen, t.msglen, t.phase)) =
    some ({ h0 := 0xA9993E36, h1 := 0x4706816A, h2 := 0xBA3E2571, h3 := 0x7850C26C, h4 := 0x9CD0D89D }, 0, 3,
      ShaPhase.finalized) := by decide +kernel

/-- R204: the digest bytes of "abc". -/
theorem test_sha1Digest : after (exec .sha1Digest finalizedAbc) (fun t => t.response) =
    some (some { status := .ok, payload :=
      [0xa9, 0x99, 0x3e, 0x36, 0x47, 0x06, 0x81, 0x6a, 0xba, 0x3e, 0x25, 0x71, 0x78, 0x50, 0xc2, 0x6c, 0x9c, 0xd0, 0xd8,
        0x9d] }) := by decide

/-- R205: no digest in phase `Created`. -/
theorem test_sha1Digest_sequence : after (exec .sha1Digest createdAbc) (fun t => t.response) =
    some (some { status := .sequenceError, payload := [] }) := by decide

/-- R77: an unknown opcode. -/
theorem test_illegal_opcode : after (step { keyed with hostIn := [0x13, 0, 0, 0, 1, 0xFF, 0x20] })
      (fun t => (t.hostIn, t.response)) =
    some ([0x20], some { status := .illegalCommand, payload := [] }) := by decide

/-- R73: the serial form of a response. -/
theorem test_response_bytes : Response.bytes { status := .sequenceError, payload := [] } = [0x80, 0, 0, 0, 0] := by decide

/-! ### Witnesses: for every obligation with hypotheses, a state and operands that meet them -/

/-- The waiting frame `f`, with one byte behind it. -/
def fed (s : State) (bytes : List Byte) : State := { s with hostIn := bytes ++ [0x20] }

theorem witness_DecodeOfEncodeIsTheCommand : 16 ≤ Config.maxLen ∧ (Instr.aesEncBlock plain).wellFormed 16 = true ∧
    (Instr.aesExpand []).wellFormed 0 = true := by decide

theorem witness_EncodeOfDecodeIsTheBytes : decode [0x20, 0, 0, 0, 0, 0xFF] = .ok (.sha1Create, [0xFF]) := by decide

/-- One frame for each clause, at the boundaries: opcodes beside the seven, `LEN` 1, 15, 17 and the allowed ones. -/
theorem witness_FrameDecodingIsTotal :
    (0x0F ∉ ([0x10, 0x11, 0x12, 0x20, 0x21, 0x22, 0x23] : List Byte) ∧
      0x13 ∉ ([0x10, 0x11, 0x12, 0x20, 0x21, 0x22, 0x23] : List Byte) ∧
      0x24 ∉ ([0x10, 0x11, 0x12, 0x20, 0x21, 0x22, 0x23] : List Byte)) ∧
    (0x20 ∈ ([0x20, 0x22, 0x23] : List Byte) ∧ ([0] : List Byte).length ≠ 0) ∧
    ((List.replicate 15 (0 : Byte)).length ≠ 16 ∧ (List.replicate 17 (0 : Byte)).length ≠ 16) ∧
    (0x10 ∈ ([0x10, 0x12, 0x21] : List Byte) ∧ 0x23 ∈ ([0x20, 0x22, 0x23] : List Byte) ∧ plain.length = 16) := by decide

theorem witness_StepRunsDecodedCommand : decode (fed keyed [0x12, 0, 0, 0, 0]).hostIn = .ok (.aesEncEcb [], [0x20]) := by
  decide

/-- Nothing at the port, and a frame that lacks its last byte. -/
theorem witness_StepWaitsWithoutFrame : splitFrame blank.hostIn = none ∧
    splitFrame { blank with hostIn := [0x21, 0, 0, 0, 2, 0x61] : State }.hostIn = none := by decide

theorem witness_UnknownOpcodeIsIllegal :
    splitFrame (fed keyed [0x13, 0, 0, 0, 1, 0xAA]).hostIn = some ({ op := 0x13, payload := [0xAA] }, [0x20]) ∧
    0x13 ∉ ([0x10, 0x11, 0x12, 0x20, 0x21, 0x22, 0x23] : List Byte) := by decide

/-- An `N` frame with `LEN` 1, and a `B16` frame with `LEN` 15. -/
theorem witness_ForbiddenLengthIsIllegal :
    splitFrame (fed keyed [0x22, 0, 0, 0, 1, 0xAA]).hostIn = some ({ op := 0x22, payload := [0xAA] }, [0x20]) ∧
    splitFrame (fed keyed ([0x11, 0, 0, 0, 15] ++ List.replicate 15 0)).hostIn =
      some ({ op := 0x11, payload := List.replicate 15 0 }, [0x20]) := by decide

theorem witness_EveryFrameGetsOneResponse :
    splitFrame (fed keyed [0x12, 0, 0, 0, 0]).hostIn = some ({ op := 0x12, payload := [] }, [0x20]) := by decide

/-- An encryption without a schedule: the next state carries an error response. -/
theorem witness_ErrorsChangeNothing : ∃ (t : State) (r : Response),
    splitFrame (fed blank [0x12, 0, 0, 0, 0]).hostIn = some ({ op := 0x12, payload := [] }, [0x20]) ∧
    step (fed blank [0x12, 0, 0, 0, 0]) = .next t ∧ t.response = some r ∧ r.status ≠ .ok :=
  ⟨_, _, rfl, rfl, rfl, by decide⟩

/-- A frame that spells no command; commands that miss state and ones that do not; the operations' own errors and none. -/
theorem witness_ErrorPriority :
    decodeFrame { op := 0x13, payload := [] } = .error (.unknownOp 0x13) ∧
    (decodeFrame { op := 0x12, payload := [0] } = .ok (.aesEncEcb [0]) ∧ MissesState (.aesEncEcb [0]) blank ∧
      ¬ MissesState (.aesEncEcb [0]) keyed ∧ ([0] : List Byte).length % 16 ≠ 0) ∧
    (decodeFrame { op := 0x10, payload := [] } = .ok (.aesExpand []) ∧ ¬ MissesState (.aesExpand []) blank ∧
      ([] : List Byte).length ≠ 16) ∧
    (decodeFrame { op := 0x23, payload := [] } = .ok .sha1Digest ∧ ¬ MissesState .sha1Digest finalizedAbc) := by
  refine ⟨rfl, ⟨rfl, rfl, by simp [MissesState, keyed], by decide⟩, ⟨rfl, by simp [MissesState], by decide⟩, rfl, ?_⟩
  simp [MissesState, finalizedAbc]

theorem witness_SboxIsItsFormula : (1 : Byte) ≠ 0 := by decide

theorem witness_KeyWordOperations : (1 ≤ 1 ∧ 1 ≤ 10) ∧ (1 ≤ 10 ∧ 10 ≤ 10) := by decide

/-- The first boundary word, a word that is none, and the last word. -/
theorem witness_ExpandKeyRecurrence : (0 < 16 ∧ 15 < 16) ∧ (16 ≤ 16 ∧ 16 ≤ 172 ∧ 16 % 4 = 0 ∧ 16 % 16 = 0) ∧
    (16 ≤ 172 ∧ 172 ≤ 172 ∧ 172 % 4 = 0 ∧ 172 % 16 ≠ 0) := by decide

theorem witness_AesExpandLatchesSchedule : key.length = 16 ∧ (List.replicate 24 (0 : Byte)).length ≠ 16 := by decide

theorem witness_ExpandedScheduleShape : key.length = 16 := by decide

theorem witness_WrongKeySizeIsUnsupported : ([] : List Byte).length ≠ 16 ∧ (List.replicate 15 (0 : Byte)).length ≠ 16 ∧
    (List.replicate 17 (0 : Byte)).length ≠ 16 := by decide

/-- A failed expansion, and a SHA-1 command, in a state with a schedule. -/
theorem witness_ScheduleLifetime : (∃ t, exec (.aesExpand []) keyed = .next t) ∧
    (∀ k, Instr.aesExpand [] = .aesExpand k → k.length ≠ 16) ∧ (∃ t, exec .sha1Create keyed = .next t) ∧
    keyed.rksValid = true ∧ plain.length = 16 ∧ (plain ++ plain).length % 16 = 0 := by
  refine ⟨⟨_, rfl⟩, ?_, ⟨_, rfl⟩, rfl, by decide, by decide⟩
  rintro k ⟨⟩
  decide

theorem witness_BytewiseOperations : (0 ≤ 10 ∧ 0 < 16) ∧ (10 ≤ 10 ∧ 15 < 16) := by decide

/-- Rows and columns at the ends, and a State of four equal columns. -/
theorem witness_ShiftRowsRotatesRows : (0 < 4 ∧ 3 < 4) ∧ ∀ r c, r < 4 → c < 4 →
    byteAt (Vector.replicate 16 7 : Block) (r + 4 * c) = byteAt (Vector.replicate 16 7 : Block) r := by
  refine ⟨by decide, ?_⟩
  intro r c hr hc
  rw [byteAt_replicate _ _ (by omega), byteAt_replicate _ _ (by omega)]

/-- A column at each end, and a column of four equal bytes. -/
theorem witness_MixColumnsMatrix : (0 < 4 ∧ 3 < 4) ∧ ∀ k, k < 4 →
    byteAt (Vector.replicate 16 7 : Block) (4 * 3 + k) = byteAt (Vector.replicate 16 7 : Block) (4 * 3 + 0) := by
  refine ⟨by decide, ?_⟩
  intro k hk
  rw [byteAt_replicate _ _ (by omega), byteAt_replicate _ _ (by omega)]

theorem witness_AesEncBlockEncrypts : plain.length = 16 ∧ keyed.rksValid = true ∧ blank.rksValid = false :=
  ⟨by decide, rfl, rfl⟩

theorem witness_AesEncEcbEncryptsEveryBlock : blank.rksValid = false ∧ keyed.rksValid = true ∧
    (List.replicate 15 (0 : Byte)).length % 16 ≠ 0 ∧ (List.replicate 17 (0 : Byte)).length % 16 ≠ 0 ∧
    ([] : List Byte).length % 16 = 0 ∧ (plain ++ plain).length % 16 = 0 ∧ 1 < (plain ++ plain).length / 16 :=
  ⟨rfl, rfl, by decide, by decide, by decide, by decide, by decide⟩

theorem witness_EmptyEcbIsOk : keyed.rksValid = true ∧ blank.rksValid = false := ⟨rfl, rfl⟩

/-- A schedule; an empty and a two-block payload; two equal blocks; one block. -/
theorem witness_EcbHasNoChaining : keyed.rksValid = true ∧ ([] : List Byte).length % 16 = 0 ∧
    (plain ++ plain).length % 16 = 0 ∧ (0 < (plain ++ plain).length / 16 ∧ 1 < (plain ++ plain).length / 16 ∧
      ((plain ++ plain).drop (16 * 0)).take 16 = ((plain ++ plain).drop (16 * 1)).take 16) ∧ plain.length = 16 :=
  ⟨rfl, by decide, by decide, by decide, by decide⟩

theorem witness_RotL32MovesBits : (0 < 1 ∧ 1 < 32 ∧ 0 < 32) ∧ (0 < 31 ∧ 31 < 32 ∧ 31 < 32) := by decide

theorem witness_MessageScheduleRecurrence : (0 < 16 ∧ 15 < 16) ∧ (16 ≤ 16 ∧ 16 < 80) ∧ (16 ≤ 79 ∧ 79 < 80) := by decide

theorem witness_RoundFunctionAndConstant : (0 ≤ 19 ∧ 19 ≤ 19) ∧ (20 ≤ 20 ∧ 20 ≤ 39) ∧ (20 ≤ 39 ∧ 39 ≤ 39) ∧
    (40 ≤ 40 ∧ 40 ≤ 59) ∧ (40 ≤ 59 ∧ 59 ≤ 59) ∧ (60 ≤ 60 ∧ 60 ≤ 79) ∧ (60 ≤ 79 ∧ 79 ≤ 79) := by decide

theorem witness_CompressRunsEightyRounds : 0 < 80 ∧ 79 < 80 := by decide

/-- Every phase; no byte; a payload that fills the buffer exactly, one byte fewer, and `BUFLEN` at its ends. -/
theorem witness_Sha1AddDataAbsorbs : blank.phase ≠ .created ∧ finalizedAbc.phase ≠ .created ∧ created.phase = .created ∧
    created.buflen.val < 64 ∧ 64 ≤ createdAbc.buflen.val + (List.replicate 61 (0 : Byte)).length ∧
    createdAbc.buflen.val + (List.replicate 60 (0 : Byte)).length < 64 ∧
    ({ created with buflen := 63 } : State).buflen.val < 64 ∧
    64 ≤ ({ created with buflen := 63 } : State).buflen.val + ([0] : List Byte).length := by
  refine ⟨nofun, nofun, rfl, ?_, ?_, ?_, ?_, ?_⟩ <;> decide

theorem witness_StreamingEquivalence : createdAbc.phase = .created ∧ createdAbc.buflen.val < 64 := ⟨rfl, by decide⟩

theorem witness_PaddingByteCountTable : (0 < 64 ∧ 0 ≤ 55) ∧ (55 < 64 ∧ 55 ≤ 55) ∧ 56 < 64 ∧ (57 < 64 ∧ 57 ≤ 57) ∧
    (63 < 64 ∧ 57 ≤ 63) := by decide

/-- Every phase, and `BUFLEN` at 0, 55, 56 and 63. -/
theorem witness_Sha1FinalizePads : blank.phase ≠ .created ∧ created.phase = .created ∧ created.buflen.val ≤ 55 ∧
    ({ created with buflen := 55 } : State).buflen.val ≤ 55 ∧ 56 ≤ ({ created with buflen := 56 } : State).buflen.val ∧
    ({ created with buflen := 56 } : State).buflen.val < 64 ∧ ({ created with buflen := 63 } : State).buflen.val < 64 := by
  refine ⟨nofun, rfl, ?_, ?_, ?_, ?_, ?_⟩ <;> decide

theorem witness_Sha1DigestReadsHash : finalizedAbc.phase = .finalized ∧ created.phase ≠ .finalized := ⟨rfl, nofun⟩

theorem witness_PhaseTable : blank.phase = .none ∧ created.phase = .created ∧ finalizedAbc.phase = .finalized :=
  ⟨rfl, rfl, rfl⟩

/-- A state with a schedule and an empty context, and a frame at its port that adds one byte. -/
def busy : State :=
  { created with rks := expandKey (toBlock key), rksValid := true, hostIn := [0x21, 0, 0, 0, 1, 0xAA] }

/-- Data that fits one payload, at the boundary, data that does not, and a cut other than the model's. -/
theorem witness_Sha1HashClosedForm : ([1, 2] : List Byte).length ≤ 2 ∧ ¬ ([1, 2, 3] : List Byte).length ≤ 2 ∧ 0 < 2 ∧
    ([[1], [], [2, 3]] : List (List Byte)).flatten = [1, 2, 3] ∧ sha1HashPayloads 2 [1, 2, 3] ≠ [[1], [], [2, 3]] := by decide

/-- A reset state, and a well-formed command that is neither `AES_EXPAND` nor `SHA1_CREATE`. -/
theorem witness_ResetControlState : (State.reset = State.reset ∨ State.reset = busy.resetEvent) ∧
    (Instr.aesEncBlock plain).wellFormed 16 = true ∧ (∀ k, Instr.aesEncBlock plain ≠ .aesExpand k) ∧
    Instr.aesEncBlock plain ≠ .sha1Create :=
  ⟨.inl rfl, by decide, nofun, nofun⟩

/-- `busy` meets the invariant with two of its guards on, and steps. -/
theorem witness_EveryStepKeepsInvariant : Inv busy ∧ busy.rksValid = true ∧ busy.phase = .created ∧
    ∃ t, step busy = .next t := by
  refine ⟨⟨fun _ => ⟨toBlock key, by simp only [busy]⟩, fun _ => ⟨[], ?_, ?_, rfl, rfl⟩, nofun⟩, rfl, rfl, ?_⟩
  · exact (hashBlocks_of_lt sha1Iv [] (by decide)).symm
  · exact toBuffer_nil.symm
  · rw [step_of_some busy { op := 0x21, payload := [0xAA] } [] (by decide),
      answer_of_ok _ (.sha1AddData [0xAA]) _ (by decide)]
    exact ⟨_, exec_sha1AddData_ok _ _ rfl⟩

/-- A state with a schedule that steps, and one without a schedule whose step sets the valid bit. -/
theorem witness_RksValidOnlyEverSet : (∃ t, step (fed keyed [0x20, 0, 0, 0, 0]) = .next t ∧ keyed.rksValid = true) ∧
    blank.rksValid = false ∧
    after (step (fed blank ([0x10, 0, 0, 0, 16] ++ key))) (fun t => t.rksValid) = some true :=
  ⟨⟨_, rfl, rfl⟩, rfl, by decide⟩

/-- A step that opens a context, and one that finalizes it. -/
theorem witness_PhaseMovesOnlyByCreateAndFinalize :
    (blank.phase = .none ∧ after (step (fed blank [0x20, 0, 0, 0, 0])) (fun t => t.phase) = some ShaPhase.created) ∧
    (created.phase = .created ∧
      after (step (fed created [0x22, 0, 0, 0, 0])) (fun t => t.phase) = some ShaPhase.finalized) := by
  refine ⟨⟨rfl, ?_⟩, rfl, ?_⟩
  · decide
  · decide +kernel

/-- For each clause a command it speaks of, and a next state of it. -/
theorem witness_RegisterWriters : (∃ t, exec .sha1Finalize createdAbc = .next t) ∧
    (∀ k, Instr.sha1Finalize ≠ .aesExpand k) ∧ (∃ t, exec (.sha1AddData [1]) createdAbc = .next t) ∧
    Instr.sha1AddData [1] ≠ .sha1Create ∧ Instr.sha1AddData [1] ≠ .sha1Finalize ∧
    (∃ t, exec .sha1Digest finalizedAbc = .next t) ∧ (∀ d, Instr.sha1Digest ≠ .sha1AddData d) :=
  ⟨⟨_, rfl⟩, nofun, ⟨_, rfl⟩, nofun, nofun, ⟨_, rfl⟩, nofun⟩

theorem witness_AesAndShaDoNotInterfere : IsAes (.aesEncBlock plain) ∧ ¬ IsAes .sha1Finalize := ⟨trivial, id⟩

/-- Two states with different contents behind closed guards, that step. -/
theorem witness_UnspecifiedStateIsInvisible : ∃ s', fed blank [0x20, 0, 0, 0, 0] ≠
      { fed blank [0x20, 0, 0, 0, 0] with msglen := 5, buflen := 9, freeCount := 3 } ∧
    SameVisible (fed blank [0x20, 0, 0, 0, 0])
      { fed blank [0x20, 0, 0, 0, 0] with msglen := 5, buflen := 9, freeCount := 3 } ∧
    step (fed blank [0x20, 0, 0, 0, 0]) = .next s' := by
  refine ⟨_, ?_, ⟨rfl, rfl, rfl, rfl, fun h => ?_, fun h => ?_⟩, rfl⟩
  · intro e
    have := congrArg State.freeCount e
    revert this
    decide
  · exact absurd h (by decide)
  · exact absurd rfl h

end Sys2Proof.Tests
end

section
/-! SUPPORT. What every step keeps: the invariant of the schedule and of the context, the two control registers, and the
registers that no host can see (10_state.md R22, R34, R35, R38, R45). Each fact is proved of one command, from its cases, and
then of the step. -/

namespace Sys2Proof.Machine

/-! ### The invariant -/

/-- After a reset no guard of the invariant is on (R45). -/
theorem inv_resetWith (n : Nat) : Inv (State.resetWith n) := ⟨nofun, nofun, nofun⟩

/-- The invariant does not look at the response port. -/
theorem inv_setResponse (s : State) (r : Response) (hs : Inv s) : Inv (s.setResponse r) := hs

theorem sameSha_latchSchedule (s : State) (k : Schedule) : SameSha s (s.latchSchedule k) :=
  ⟨latchSchedule_h s k, latchSchedule_buf s k, latchSchedule_buflen s k, latchSchedule_msglen s k, latchSchedule_phase s k⟩

/-- Latching the expansion of a key makes the schedule such an expansion and leaves the context (R22, R130). -/
theorem inv_latchSchedule (s : State) (key : Block) (hs : Inv s) : Inv (s.latchSchedule (expandKey key)) := by
  obtain ⟨-, hcreated, hfinal⟩ := hs
  have hsha := sameSha_latchSchedule s (expandKey key)
  exact ⟨fun _ => ⟨key, latchSchedule_rks s _⟩, createdInv_of_same s _ hsha hcreated, finalizedInv_of_same s _ hsha hfinal⟩

/-- A context that holds a message meets both invariants of the context, in phase `Created`. -/
theorem inv_of_contextHolds (t : State) (m : List Byte) (hk : ScheduleInv t) (hp : t.phase = .created)
    (hc : ContextHolds t m) : Inv t :=
  ⟨hk, fun _ => ⟨m, hc⟩, fun hf => nomatch hp.symm.trans hf⟩

/-- Finalizing a context that holds a message meets the invariant of phase `Finalized` (R202, R208). -/
theorem finalizedInv_finalizeContext (s : State) (m : List Byte) (hc : ContextHolds s m) :
    FinalizedInv s.finalizeContext := by
  have hh := finalizeContext_h_of_contextHolds s m hc
  obtain ⟨-, -, hl, hm⟩ := hc
  have hlt : s.buflen.val < 64 := by omega
  exact fun _ => ⟨m, hh, finalizeContext_buf s hlt, finalizeContext_buflen s hlt, (finalizeContext_msglen s).trans hm⟩

/-- Every command keeps the invariant. -/
theorem execCase_keeps_inv (i : Instr) (s t : State) (h : ExecCase i s t) (hs : Inv s) : Inv t := by
  have ⟨hsched, hcreated, _⟩ := hs
  cases h with
  | error => exact hs
  | aesExpand key => exact inv_setResponse _ _ (inv_latchSchedule s (toBlock key) hs)
  | aesEncBlock => exact hs
  | aesEncEcb => exact hs
  | sha1Create => exact inv_of_contextHolds _ [] hsched (createContext_phase s) (contextHolds_createContext s)
  | sha1AddData data _ hp =>
    obtain ⟨m, hm⟩ := hcreated hp
    have hf := absorb_frame s data true
    exact inv_of_contextHolds _ (m ++ data) (scheduleInv_of_same s _ ⟨hf.rks, hf.rksValid⟩ hsched)
      (hf.phase.trans hp) (contextHolds_absorb s m data hm)
  | sha1Finalize _ hp =>
    obtain ⟨m, hm⟩ := hcreated hp
    exact ⟨scheduleInv_of_same s _ (finalizeContext_same s).1 hsched, nofun, finalizedInv_finalizeContext s m hm⟩
  | sha1Digest => exact hs

/-! ### The two control registers -/

/-- A command leaves `RKS_VALID`, or it is `AES_EXPAND` with a 16-byte key and sets it (R22). -/
theorem execCase_rksValid (i : Instr) (s t : State) (h : ExecCase i s t) :
    t.rksValid = s.rksValid ∨ (t.rksValid = true ∧ ∃ key, i = .aesExpand key ∧ key.length = 16) := by
  cases h with
  | error => exact .inl rfl
  | aesExpand key _ hk => exact .inr ⟨rfl, key, rfl, hk⟩
  | aesEncBlock => exact .inl rfl
  | aesEncEcb => exact .inl rfl
  | sha1Create => exact .inl rfl
  | sha1AddData data => exact .inl (absorb_frame s data true).rksValid
  | sha1Finalize => exact .inl (finalizeContext_same s).1.2
  | sha1Digest => exact .inl rfl

/-- A step leaves `RKS_VALID`, or it takes an `AES_EXPAND` with a 16-byte key and sets it (R22). -/
theorem step_rksValid (s t : State) (h : step s = .next t) :
    t.rksValid = s.rksValid ∨
      (t.rksValid = true ∧ ∃ key rest, decode s.hostIn = .ok (.aesExpand key, rest) ∧ key.length = 16) := by
  obtain ⟨-, rfl⟩ | ⟨f, rest, e, -, -, rfl⟩ | ⟨i, rest, hd, hc⟩ := step_cases s t h
  · exact .inl rfl
  · exact .inl rfl
  · obtain he | ⟨ht, key, rfl, hk⟩ := execCase_rksValid i { s with hostIn := rest } t hc
    · exact .inl he
    · exact .inr ⟨ht, key, rest, hd, hk⟩

/-- A command leaves `SHA_PHASE`, or it is `SHA1_CREATE`, or `SHA1_FINALIZE` in phase `Created` (R35). -/
theorem execCase_phase (i : Instr) (s t : State) (h : ExecCase i s t) :
    t.phase = s.phase ∨ (i = .sha1Create ∧ t.phase = .created) ∨
      (i = .sha1Finalize ∧ s.phase = .created ∧ t.phase = .finalized) := by
  cases h with
  | error => exact .inl rfl
  | aesExpand => exact .inl (by rw [setResponse_phase, latchSchedule_phase])
  | aesEncBlock => exact .inl rfl
  | aesEncEcb => exact .inl rfl
  | sha1Create => exact .inr (.inl ⟨rfl, rfl⟩)
  | sha1AddData data => exact .inl (absorb_frame s data true).phase
  | sha1Finalize _ hp => exact .inr (.inr ⟨rfl, hp, finalizeContext_phase s⟩)
  | sha1Digest => exact .inl rfl

/-! ### What the host cannot see -/

theorem sameVisible_setResponse (s t : State) (r : Response) (h : SameVisible s t) :
    SameVisible (s.setResponse r) (t.setResponse r) := by
  obtain ⟨hin, -, hregs⟩ := h
  exact ⟨hin, rfl, hregs⟩

theorem sameVisible_setHostIn (s t : State) (rest : List Byte) (h : SameVisible s t) :
    SameVisible { s with hostIn := rest } { t with hostIn := rest } := by
  obtain ⟨-, hregs⟩ := h
  exact ⟨rfl, hregs⟩

/-- A latched schedule is seen, and it is the same (R130). -/
theorem sameVisible_latchSchedule (s t : State) (rks : Schedule) (h : SameVisible s t) :
    SameVisible (s.latchSchedule rks) (t.latchSchedule rks) := by
  obtain ⟨hin, hres, -, hphase, -, hctx⟩ := h
  exact ⟨hin, hres, rfl, hphase, fun _ => rfl, hctx⟩

/-- A fresh context is seen, and it is the same (R200). -/
theorem sameVisible_createContext (s t : State) (h : SameVisible s t) :
    SameVisible s.createContext t.createContext := by
  obtain ⟨hin, hres, hvalid, -, hrks, -⟩ := h
  exact ⟨hin, hres, hvalid, rfl, hrks, fun _ => ⟨rfl, rfl, rfl, rfl⟩⟩

/-- While a context exists, its registers are seen (R35). -/
theorem sameContext_of_sameVisible (s t : State) (h : SameVisible s t) (hp : s.phase ≠ .none) : SameContext s t := by
  obtain ⟨-, -, -, -, -, hctx⟩ := h
  obtain ⟨hh, hbuf, hlen, hmsg⟩ := hctx hp
  exact ⟨hh, hbuf, hlen, hmsg⟩

/-- Two states that look the same and have the same context still do after absorbing the same bytes. -/
theorem sameVisible_absorb (s t : State) (data : List Byte) (counted : Bool) (h : SameVisible s t)
    (hc : SameContext s t) : SameVisible (s.absorb data counted) (t.absorb data counted) := by
  obtain ⟨hin, hres, hvalid, hphase, hrks, -⟩ := h
  have hs := absorb_frame s data counted
  have ht := absorb_frame t data counted
  obtain ⟨hh, hbuf, hlen, hmsg⟩ := absorb_sameContext s t data counted hc
  refine ⟨?_, ?_, ?_, ?_, fun hv => ?_, fun _ => ⟨hh, hbuf, hlen, hmsg⟩⟩
  · rw [hs.hostIn, ht.hostIn, hin]
  · rw [hs.response, ht.response, hres]
  · rw [hs.rksValid, ht.rksValid, hvalid]
  · rw [hs.phase, ht.phase, hphase]
  · rw [hs.rks, ht.rks, hrks (hs.rksValid.symm.trans hv)]

theorem sameVisible_setPhase (s t : State) (p : ShaPhase) (h : SameVisible s t) (hc : SameContext s t) :
    SameVisible (s.setPhase p) (t.setPhase p) := by
  obtain ⟨hin, hres, hvalid, -, hrks, -⟩ := h
  exact ⟨hin, hres, hvalid, rfl, hrks, fun _ => ⟨hc.h, hc.buf, hc.buflen, hc.msglen⟩⟩

/-- Finalizing absorbs the same padding in two states with the same context. -/
theorem sameVisible_finalizeContext (s t : State) (h : SameVisible s t) (hc : SameContext s t) :
    SameVisible s.finalizeContext t.finalizeContext := by
  rw [State.finalizeContext, State.finalizeContext, hc.buflen, hc.msglen]
  exact sameVisible_setPhase _ _ _ (sameVisible_absorb s t _ false h hc) (absorb_sameContext s t _ false hc)

/-- Two states that look the same answer every command alike and look the same afterwards. -/
theorem exec_sameVisible (i : Instr) (s t : State) (h : SameVisible s t) :
    ∃ s' t', exec i s = .next s' ∧ exec i t = .next t' ∧ SameVisible s' t' := by
  have answers (r : Response) := sameVisible_setResponse s t r h
  have ⟨_, _, hvalid, hphase, hrks, _⟩ := h
  cases i with
  | aesExpand key =>
    by_cases hk : key.length = 16
    · exact ⟨_, _, exec_aesExpand_ok key s hk, exec_aesExpand_ok key t hk,
        sameVisible_setResponse _ _ _ (sameVisible_latchSchedule s t _ h)⟩
    · exact ⟨_, _, exec_aesExpand_error key s hk, exec_aesExpand_error key t hk, answers _⟩
  | aesEncBlock block =>
    by_cases hb : block.length = 16
    · cases hv : s.rksValid with
      | true =>
        refine ⟨_, _, exec_aesEncBlock_ok block s hb hv, exec_aesEncBlock_ok block t hb (hvalid.trans hv), ?_⟩
        rw [hrks hv]
        exact answers _
      | false =>
        exact ⟨_, _, exec_aesEncBlock_sequence block s hb hv,
          exec_aesEncBlock_sequence block t hb (hvalid.trans hv), answers _⟩
    · exact ⟨_, _, exec_aesEncBlock_illegal block s hb, exec_aesEncBlock_illegal block t hb, answers _⟩
  | aesEncEcb data =>
    cases hv : s.rksValid with
    | true =>
      by_cases hd : data.length % 16 = 0
      · refine ⟨_, _, exec_aesEncEcb_ok data s hd hv, exec_aesEncEcb_ok data t hd (hvalid.trans hv), ?_⟩
        rw [hrks hv]
        exact answers _
      · exact ⟨_, _, exec_aesEncEcb_length data s hd hv, exec_aesEncEcb_length data t hd (hvalid.trans hv), answers _⟩
    | false =>
      exact ⟨_, _, exec_aesEncEcb_sequence data s hv, exec_aesEncEcb_sequence data t (hvalid.trans hv), answers _⟩
  | sha1Create =>
    exact ⟨_, _, exec_sha1Create s, exec_sha1Create t,
      sameVisible_setResponse _ _ _ (sameVisible_createContext s t h)⟩
  | sha1AddData data =>
    by_cases hp : s.phase = .created
    · have hc := sameContext_of_sameVisible s t h (hp ▸ nofun)
      exact ⟨_, _, exec_sha1AddData_ok data s hp, exec_sha1AddData_ok data t (hphase.trans hp),
        sameVisible_setResponse _ _ _ (sameVisible_absorb s t data true h hc)⟩
    · exact ⟨_, _, exec_sha1AddData_sequence data s hp, exec_sha1AddData_sequence data t (hphase ▸ hp), answers _⟩
  | sha1Finalize =>
    by_cases hp : s.phase = .created
    · have hc := sameContext_of_sameVisible s t h (hp ▸ nofun)
      exact ⟨_, _, exec_sha1Finalize_ok s hp, exec_sha1Finalize_ok t (hphase.trans hp),
        sameVisible_setResponse _ _ _ (sameVisible_finalizeContext s t h hc)⟩
    · exact ⟨_, _, exec_sha1Finalize_sequence s hp, exec_sha1Finalize_sequence t (hphase ▸ hp), answers _⟩
  | sha1Digest =>
    by_cases hp : s.phase = .finalized
    · have hc := sameContext_of_sameVisible s t h (hp ▸ nofun)
      refine ⟨_, _, exec_sha1Digest_ok s hp, exec_sha1Digest_ok t (hphase.trans hp), ?_⟩
      rw [hc.h]
      exact answers _
    · exact ⟨_, _, exec_sha1Digest_sequence s hp, exec_sha1Digest_sequence t (hphase ▸ hp), answers _⟩

/-- Two states that look the same answer every frame alike and look the same afterwards. -/
theorem answer_sameVisible (f : Frame) (s t : State) (h : SameVisible s t) :
    ∃ s' t', answer f s = .next s' ∧ answer f t = .next t' ∧ SameVisible s' t' := by
  cases hd : decodeFrame f with
  | error e => exact ⟨_, _, answer_of_error f e s hd, answer_of_error f e t hd, sameVisible_setResponse s t _ h⟩
  | ok i =>
    rw [answer_of_ok f i s hd, answer_of_ok f i t hd]
    exact exec_sameVisible i s t h

/-- Two states that look the same step alike and look the same afterwards. -/
theorem step_sameVisible (s t : State) (h : SameVisible s t) :
    ∃ s' t', step s = .next s' ∧ step t = .next t' ∧ SameVisible s' t' := by
  have ⟨hin, _⟩ := h
  cases hs : splitFrame s.hostIn with
  | none => exact ⟨s, t, step_of_none s hs, step_of_none t (hin ▸ hs), h⟩
  | some p =>
    obtain ⟨f, rest⟩ := p
    rw [step_of_some s f rest hs, step_of_some t f rest (hin ▸ hs)]
    exact answer_sameVisible f _ _ (sameVisible_setHostIn s t rest h)

/-! ### The obligations -/

/-- Settles O49: waiting and a refused frame leave the persistent registers, and every command keeps the invariant. -/
theorem everyStepKeepsInvariant : Obligations.EveryStepKeepsInvariant := by
  unfold Obligations.EveryStepKeepsInvariant
  intro s t hs h
  obtain ⟨-, rfl⟩ | ⟨f, rest, e, -, -, rfl⟩ | ⟨i, rest, -, hc⟩ := step_cases s t h
  · exact hs
  · exact hs
  · exact execCase_keeps_inv i { s with hostIn := rest } t hc hs

/-- Settles O54: `SameVisible` is a simulation of the step by itself. -/
theorem unspecifiedStateIsInvisible : Obligations.UnspecifiedStateIsInvisible := by
  unfold Obligations.UnspecifiedStateIsInvisible
  intro s t s' h hs'
  obtain ⟨u, t', hu, ht', hut⟩ := step_sameVisible s t h
  obtain rfl : s' = u := by
    rw [hs'] at hu
    exact Host.Outcome.next.inj hu
  exact ⟨t', ht', hut⟩

/-- Settles O50: only `AES_EXPAND` with 16 bytes writes the bit, and it sets it. -/
theorem rksValidOnlyEverSet : Obligations.RksValidOnlyEverSet := by
  unfold Obligations.RksValidOnlyEverSet
  intro s t h
  obtain he | ⟨ht, hkey⟩ := step_rksValid s t h
  · exact ⟨he.trans, fun hf ht => nomatch ht.symm.trans (he.trans hf)⟩
  · exact ⟨fun _ => ht, fun _ _ => hkey⟩

/-- Settles O51: only the two commands write the phase, and `SHA1_FINALIZE` only in phase `Created`. -/
theorem phaseMovesOnlyByCreateAndFinalize : Obligations.PhaseMovesOnlyByCreateAndFinalize := by
  unfold Obligations.PhaseMovesOnlyByCreateAndFinalize
  intro s t h hne
  obtain ⟨-, rfl⟩ | ⟨f, rest, e, -, -, rfl⟩ | ⟨i, rest, hd, hc⟩ := step_cases s t h
  · exact absurd rfl hne
  · exact absurd rfl hne
  · obtain he | ⟨rfl, ht⟩ | ⟨rfl, hp, ht⟩ := execCase_phase i { s with hostIn := rest } t hc
    · exact absurd he hne
    · exact .inl ⟨ht, rest, hd⟩
    · exact .inr ⟨hp, ht, rest, hd⟩

/-- Settles O48: every reset is a `State.resetWith`. -/
theorem invariantHoldsAtReset : Obligations.InvariantHoldsAtReset := by
  unfold Obligations.InvariantHoldsAtReset
  exact ⟨inv_resetWith 0, fun s => inv_resetWith s.freeCount⟩

end Sys2Proof.Machine
end

section
/-! PROOFS. One step as the link from the decoder to the commands (20_memory.md R57, 30_encoding.md R81). -/

namespace Sys2Proof.Machine

/-- Settles O5: the frame that `decode` reads is the frame that the step fetches, and its answer is the command's. -/
theorem stepRunsDecodedCommand : Obligations.StepRunsDecodedCommand := by
  unfold Obligations.StepRunsDecodedCommand
  intro s i rest h
  obtain ⟨f, hsplit, hframe⟩ := (decode_ok_iff s.hostIn rest i).1 h
  calc step s
      = answer f { s with hostIn := rest } := step_of_some s f rest hsplit
    _ = exec i { s with hostIn := rest } := answer_of_ok f i _ hframe

end Sys2Proof.Machine
end

section
/-! PROOFS. The encoding (30_encoding.md R70 to R81): the round trip of the decoder and the encoder, and the decision list
of the decoder. -/

namespace Sys2Proof

/-! ### The round trip -/

/-- Settles O1: the split takes the command's frame off whole, and its format allows its `LEN`. -/
theorem decodeOfEncodeIsTheCommand : Obligations.DecodeOfEncodeIsTheCommand := by
  unfold Obligations.DecodeOfEncodeIsTheCommand
  intro maxPayload i rest hmax hwf
  obtain ⟨hlen, hallows⟩ := (wellFormed_iff maxPayload i).1 hwf
  exact (decode_ok_iff _ _ _).2
    ⟨i.frame, splitFrame_bytes i.frame rest (hlen.trans hmax), (decodeFrame_ok_iff _ _).2 ⟨rfl, hallows⟩⟩

/-- Settles O2: the frame at the front is the decoded command's, and its format allows its `LEN`. -/
theorem encodeOfDecodeIsTheBytes : Obligations.EncodeOfDecodeIsTheBytes := by
  unfold Obligations.EncodeOfDecodeIsTheBytes
  intro bytes rest i h
  obtain ⟨f, hsplit, hframe⟩ := (decode_ok_iff bytes rest i).1 h
  obtain ⟨rfl, hallows⟩ := (decodeFrame_ok_iff f i).1 hframe
  obtain ⟨hbytes, hlen⟩ := bytes_of_splitFrame bytes rest i.frame hsplit
  exact ⟨hbytes, hlen, fun maxPayload => (wellFormed_iff maxPayload i).trans (and_iff_left hallows)⟩

/-! ### The decision list (R81) -/

/-- The bytes of the opcode map (R75). -/
theorem opcode_byte_mem (o : Opcode) : o.byte ∈ ([0x10, 0x11, 0x12, 0x20, 0x21, 0x22, 0x23] : List Byte) := by
  cases o <;> decide

/-- The opcodes of format `N` (R75). -/
theorem exists_opcode_of_mem_n (op : Byte) (h : op ∈ ([0x20, 0x22, 0x23] : List Byte)) :
    ∃ o : Opcode, o.byte = op ∧ o.format = .n := by
  simp only [List.mem_cons, List.not_mem_nil, or_false] at h
  obtain rfl | rfl | rfl := h
  · exact ⟨.sha1Create, rfl, rfl⟩
  · exact ⟨.sha1Finalize, rfl, rfl⟩
  · exact ⟨.sha1Digest, rfl, rfl⟩

/-- The opcodes whose format allows every `LEN` (R74, R75). -/
theorem exists_opcode_of_mem_anyLen (op : Byte) (h : op ∈ ([0x10, 0x12, 0x21] : List Byte)) :
    ∃ o : Opcode, o.byte = op ∧ ∀ len, o.format.allows len = true := by
  simp only [List.mem_cons, List.not_mem_nil, or_false] at h
  obtain rfl | rfl | rfl := h
  · exact ⟨.aesExpand, rfl, fun _ => rfl⟩
  · exact ⟨.aesEncEcb, rfl, fun _ => rfl⟩
  · exact ⟨.sha1AddData, rfl, fun _ => rfl⟩

/-- A frame whose `OP` is none of the seven bytes (R77). -/
theorem decodeFrame_of_not_mem (f : Frame)
    (h : f.op ∉ ([0x10, 0x11, 0x12, 0x20, 0x21, 0x22, 0x23] : List Byte)) :
    decodeFrame f = .error (.unknownOp f.op) :=
  decodeFrame_unknownOp f fun o ho => h (ho ▸ opcode_byte_mem o)

/-- A frame of format `N` with a payload (R78). -/
theorem decodeFrame_n_badLength (f : Frame) (hop : f.op ∈ ([0x20, 0x22, 0x23] : List Byte))
    (hlen : f.payload.length ≠ 0) :
    ∃ o : Opcode, o.byte = f.op ∧ decodeFrame f = .error (.badLength o f.payload.length) := by
  obtain ⟨op, payload⟩ := f
  obtain ⟨o, rfl, hn⟩ := exists_opcode_of_mem_n op hop
  exact ⟨o, rfl, decodeFrame_badLength o payload (by rw [hn]; exact beq_false_of_ne hlen)⟩

/-- A frame of format `B16` without exactly one block (R78). -/
theorem decodeFrame_b16_badLength (f : Frame) (hop : f.op = 0x11) (hlen : f.payload.length ≠ 16) :
    decodeFrame f = .error (.badLength .aesEncBlock f.payload.length) := by
  obtain ⟨op, payload⟩ := f
  obtain rfl : op = 0x11 := hop
  exact decodeFrame_badLength .aesEncBlock payload (beq_false_of_ne hlen)

/-- A frame whose `OP` is one of the seven and whose `LEN` the format allows spells the command with that `OP` and that
payload (R81). -/
theorem decodeFrame_of_allows (f : Frame) (o : Opcode) (hop : o.byte = f.op)
    (hlen : o.format.allows f.payload.length = true) :
    ∃ i : Instr, decodeFrame f = .ok i ∧ i.opcode.byte = f.op ∧ i.payload = f.payload := by
  obtain ⟨op, payload⟩ := f
  subst hop
  have hpayload := payload_command o payload hlen
  refine ⟨o.command payload, (decodeFrame_ok_iff _ _).2 ⟨?_, ?_⟩, congrArg _ (opcode_command o payload), hpayload⟩
  · rw [Instr.frame, opcode_command, hpayload]
  · rwa [opcode_command, hpayload]

/-- Settles O3: one lemma for each reason to reject, and one for the frames that spell a command. -/
theorem frameDecodingIsTotal : Obligations.FrameDecodingIsTotal := by
  unfold Obligations.FrameDecodingIsTotal
  intro f
  refine ⟨decodeFrame_of_not_mem f, decodeFrame_n_badLength f, decodeFrame_b16_badLength f, ?_⟩
  rintro (hany | ⟨hn, hlen⟩ | ⟨hb16, hlen⟩)
  · obtain ⟨o, ho, hallows⟩ := exists_opcode_of_mem_anyLen f.op hany
    exact decodeFrame_of_allows f o ho (hallows _)
  · obtain ⟨o, ho, hformat⟩ := exists_opcode_of_mem_n f.op hn
    exact decodeFrame_of_allows f o ho (by rw [hformat, hlen]; rfl)
  · exact decodeFrame_of_allows f .aesEncBlock hb16.symm (by rw [hlen]; rfl)

/-- Settles O4: six fixed frames, run through the decoder. -/
theorem knownFramesDecode : Obligations.KnownFramesDecode := by
  unfold Obligations.KnownFramesDecode
  decide

end Sys2Proof
end

section
/-! PROOFS. The response to a frame (30_encoding.md R72, R76 to R78). -/

namespace Sys2Proof.Machine

/-! ### Frames that spell no command -/

/-- A frame that spells no command is taken off the port and answered `IllegalCommand`, and no register changes
(R77, R78). -/
theorem step_of_decodeFrame_error (s : State) (f : Frame) (rest : List Byte) (e : DecodeError)
    (hs : splitFrame s.hostIn = some (f, rest)) (he : decodeFrame f = .error e) :
    step s = .next { s with hostIn := rest, response := some { status := .illegalCommand, payload := [] } } :=
  (step_of_some s f rest hs).trans (answer_of_error f e _ he)

/-- Settles O7: the decoder rejects the frame as unknown. -/
theorem unknownOpcodeIsIllegal : Obligations.UnknownOpcodeIsIllegal := by
  unfold Obligations.UnknownOpcodeIsIllegal
  intro s f rest hs hop
  exact step_of_decodeFrame_error s f rest _ hs (decodeFrame_of_not_mem f hop)

/-- Settles O8: in both formats the decoder rejects the frame for its length. -/
theorem forbiddenLengthIsIllegal : Obligations.ForbiddenLengthIsIllegal := by
  unfold Obligations.ForbiddenLengthIsIllegal
  rintro s f rest hs (⟨hop, hlen⟩ | ⟨hop, hlen⟩)
  · obtain ⟨o, -, he⟩ := decodeFrame_n_badLength f hop hlen
    exact step_of_decodeFrame_error s f rest _ hs he
  · exact step_of_decodeFrame_error s f rest _ hs (decodeFrame_b16_badLength f hop hlen)

/-! ### Every response -/

/-- No command touches the command port. -/
theorem execCase_hostIn (i : Instr) (s t : State) (h : ExecCase i s t) : t.hostIn = s.hostIn := by
  cases h with
  | error => rfl
  | aesExpand => rw [setResponse_hostIn, latchSchedule_hostIn]
  | aesEncBlock => rfl
  | aesEncEcb => rfl
  | sha1Create => rfl
  | sha1AddData data => exact (absorb_frame s data true).hostIn
  | sha1Finalize =>
    obtain ⟨-, -, hin, -⟩ := finalizeContext_same s
    exact hin
  | sha1Digest => rfl

/-- Every command leaves a response; one that is not `OK` is empty, and none is longer than a schedule or the command's own
payload. -/
theorem execCase_response (i : Instr) (s t : State) (h : ExecCase i s t) :
    ∃ r, t.response = some r ∧ (r.status ≠ .ok → r.payload = []) ∧ r.payload.length ≤ max 176 i.payload.length := by
  cases h with
  | error => exact ⟨_, rfl, fun _ => rfl, Nat.zero_le _⟩
  | aesExpand =>
    refine ⟨_, rfl, fun hne => absurd rfl hne, ?_⟩
    rw [bytesOf_length]
    exact le_max_left _ _
  | aesEncBlock =>
    refine ⟨_, rfl, fun hne => absurd rfl hne, ?_⟩
    rw [bytesOf_length]
    omega
  | aesEncEcb data =>
    refine ⟨_, rfl, fun hne => absurd rfl hne, ?_⟩
    rw [encryptEcb_length]
    exact (Nat.mul_div_le data.length 16).trans (le_max_right _ _)
  | sha1Create => exact ⟨_, rfl, fun _ => rfl, Nat.zero_le _⟩
  | sha1AddData => exact ⟨_, rfl, fun _ => rfl, Nat.zero_le _⟩
  | sha1Finalize => exact ⟨_, rfl, fun _ => rfl, Nat.zero_le _⟩
  | sha1Digest =>
    refine ⟨_, rfl, fun hne => absurd rfl hne, ?_⟩
    simp [digestBytes]

/-- `RLEN` is exact where the payload's length fits its 32 bits (R72). -/
theorem rlen_toNat (r : Response) (h : r.payload.length < 2 ^ 32) : r.rlen.toNat = r.payload.length := by
  rw [Response.rlen, BitVec.toNat_ofNat, Nat.mod_eq_of_lt h]

/-- Settles O9: a frame that spells no command is answered empty, and a command's response is bounded by its payload, whose
length is a `LEN` of 32 bits. -/
theorem everyFrameGetsOneResponse : Obligations.EveryFrameGetsOneResponse := by
  unfold Obligations.EveryFrameGetsOneResponse
  intro s f rest hs
  cases hd : decodeFrame f with
  | error e => exact ⟨_, _, step_of_decodeFrame_error s f rest e hs hd, rfl, rfl, fun _ => rfl, rfl⟩
  | ok i =>
    obtain ⟨rfl, -⟩ := (decodeFrame_ok_iff f i).1 hd
    obtain ⟨-, hlen⟩ := bytes_of_splitFrame s.hostIn rest i.frame hs
    obtain ⟨t, ht, hc⟩ := exec_cases i { s with hostIn := rest }
    obtain ⟨r, hr, hempty, hrlen⟩ := execCase_response i _ t hc
    have hpayload : i.payload.length ≤ 2 ^ 32 - 1 := hlen
    have hstep : step s = .next t := by rw [step_of_some s _ rest hs, answer_of_ok _ i _ hd, ht]
    exact ⟨t, r, hstep, execCase_hostIn i _ t hc, hr, hempty, rlen_toNat r (by omega)⟩

/-- Settles O13: the code of each status, read off its definition. -/
theorem statusCodes : Obligations.StatusCodes := by
  unfold Obligations.StatusCodes
  refine ⟨⟨rfl, rfl⟩, ⟨rfl, rfl⟩, ⟨rfl, rfl⟩, ⟨rfl, rfl⟩, ⟨rfl, rfl⟩, ?distinct, ?noOther⟩
  case distinct =>
    intro a b
    cases a <;> cases b <;> decide
  case noOther =>
    intro a
    cases a <;> decide

end Sys2Proof.Machine
end

section
/-! PROOFS. Which command writes which register (30_encoding.md R85), and that the AES half and the SHA-1 half of CORE do
not interfere (R86). -/

namespace Sys2Proof.Machine

/-! ### The writers of each register (R85) -/

/-- `RKS` and `RKS_VALID` are written by `AES_EXPAND` alone. -/
theorem execCase_sameAes (i : Instr) (s t : State) (h : ExecCase i s t) (hi : ∀ key, i ≠ .aesExpand key) :
    SameAes s t := by
  cases h with
  | error => exact ⟨rfl, rfl⟩
  | aesExpand key => exact absurd rfl (hi key)
  | aesEncBlock => exact ⟨rfl, rfl⟩
  | aesEncEcb => exact ⟨rfl, rfl⟩
  | sha1Create => exact ⟨rfl, rfl⟩
  | sha1AddData data =>
    have hf := absorb_frame s data true
    exact ⟨hf.rks, hf.rksValid⟩
  | sha1Finalize => exact (finalizeContext_same s).1
  | sha1Digest => exact ⟨rfl, rfl⟩

/-- `SHA_PHASE` is written by `SHA1_CREATE` and `SHA1_FINALIZE` alone. -/
theorem execCase_phase_eq (i : Instr) (s t : State) (h : ExecCase i s t) (hcreate : i ≠ .sha1Create)
    (hfinalize : i ≠ .sha1Finalize) : t.phase = s.phase := by
  obtain heq | ⟨he, -⟩ | ⟨he, -⟩ := execCase_phase i s t h
  · exact heq
  · exact absurd he hcreate
  · exact absurd he hfinalize

/-- `MSGLEN` is written by `SHA1_CREATE` and `SHA1_ADD_DATA` alone. -/
theorem execCase_msglen_eq (i : Instr) (s t : State) (h : ExecCase i s t) (hcreate : i ≠ .sha1Create)
    (hadd : ∀ data, i ≠ .sha1AddData data) : t.msglen = s.msglen := by
  cases h with
  | error => rfl
  | aesExpand => rw [setResponse_msglen, latchSchedule_msglen]
  | aesEncBlock => rfl
  | aesEncEcb => rfl
  | sha1Create => exact absurd rfl hcreate
  | sha1AddData data => exact absurd rfl (hadd data)
  | sha1Finalize => exact finalizeContext_msglen s
  | sha1Digest => rfl

/-- `H`, `BUF` and `BUFLEN` are written by `SHA1_CREATE`, `SHA1_ADD_DATA` and `SHA1_FINALIZE` alone. -/
theorem execCase_buffer_eq (i : Instr) (s t : State) (h : ExecCase i s t) (hcreate : i ≠ .sha1Create)
    (hadd : ∀ data, i ≠ .sha1AddData data) (hfinalize : i ≠ .sha1Finalize) :
    t.h = s.h ∧ t.buf = s.buf ∧ t.buflen = s.buflen := by
  cases h with
  | error => exact ⟨rfl, rfl, rfl⟩
  | aesExpand key =>
    obtain ⟨hh, hbuf, hlen, -⟩ := sameSha_latchSchedule s (expandKey (toBlock key))
    exact ⟨hh, hbuf, hlen⟩
  | aesEncBlock => exact ⟨rfl, rfl, rfl⟩
  | aesEncEcb => exact ⟨rfl, rfl, rfl⟩
  | sha1Create => exact absurd rfl hcreate
  | sha1AddData data => exact absurd rfl (hadd data)
  | sha1Finalize => exact absurd rfl hfinalize
  | sha1Digest => exact ⟨rfl, rfl, rfl⟩

/-- Settles O52: one lemma for each row of registers. -/
theorem registerWriters : Obligations.RegisterWriters := by
  unfold Obligations.RegisterWriters
  intro i s t h
  have hc := execCase_of_next i s t h
  exact ⟨execCase_sameAes i s t hc, execCase_phase_eq i s t hc, execCase_msglen_eq i s t hc,
    execCase_buffer_eq i s t hc⟩

/-! ### The two halves write their own registers -/

/-- An AES command is none of the other half. -/
theorem IsAes.ne {i j : Instr} (hi : IsAes i) (hj : ¬ IsAes j) : i ≠ j := fun e => hj (e ▸ hi)

/-- An AES command leaves the SHA-1 registers (R86). -/
theorem execCase_sameSha (i : Instr) (s t : State) (h : ExecCase i s t) (hi : IsAes i) : SameSha s t := by
  have hcreate : i ≠ .sha1Create := hi.ne id
  have hadd (data : List Byte) : i ≠ .sha1AddData data := hi.ne id
  have hfinalize : i ≠ .sha1Finalize := hi.ne id
  obtain ⟨hh, hbuf, hlen⟩ := execCase_buffer_eq i s t h hcreate hadd hfinalize
  exact ⟨hh, hbuf, hlen, execCase_msglen_eq i s t h hcreate hadd, execCase_phase_eq i s t h hcreate hfinalize⟩

/-- A SHA-1 command leaves the schedule (R86). -/
theorem execCase_sameAes_of_sha (i : Instr) (s t : State) (h : ExecCase i s t) (hi : ¬ IsAes i) : SameAes s t :=
  execCase_sameAes i s t h fun key => (IsAes.ne (i := .aesExpand key) trivial hi).symm

/-! ### The two halves read their own registers -/

/-- Two states with the same AES registers answer an AES command alike and have the same AES registers afterwards. -/
theorem exec_congr_sameAes (i : Instr) (s t : State) (hi : IsAes i) (h : SameAes s t) :
    ∃ s' t', exec i s = .next s' ∧ exec i t = .next t' ∧ SameAes s' t' ∧ t'.response = s'.response := by
  have ⟨hrks, hvalid⟩ := h
  cases i with
  | aesExpand key =>
    by_cases hk : key.length = 16
    · exact ⟨_, _, exec_aesExpand_ok key s hk, exec_aesExpand_ok key t hk, ⟨rfl, rfl⟩, rfl⟩
    · exact ⟨_, _, exec_aesExpand_error key s hk, exec_aesExpand_error key t hk, h, rfl⟩
  | aesEncBlock block =>
    by_cases hb : block.length = 16
    · cases hv : s.rksValid with
      | true =>
        refine ⟨_, _, exec_aesEncBlock_ok block s hb hv, exec_aesEncBlock_ok block t hb (hvalid.trans hv), h, ?_⟩
        rw [setResponse_response, setResponse_response, hrks]
      | false =>
        exact ⟨_, _, exec_aesEncBlock_sequence block s hb hv,
          exec_aesEncBlock_sequence block t hb (hvalid.trans hv), h, rfl⟩
    · exact ⟨_, _, exec_aesEncBlock_illegal block s hb, exec_aesEncBlock_illegal block t hb, h, rfl⟩
  | aesEncEcb data =>
    cases hv : s.rksValid with
    | true =>
      by_cases hd : data.length % 16 = 0
      · refine ⟨_, _, exec_aesEncEcb_ok data s hd hv, exec_aesEncEcb_ok data t hd (hvalid.trans hv), h, ?_⟩
        rw [setResponse_response, setResponse_response, hrks]
      · exact ⟨_, _, exec_aesEncEcb_length data s hd hv, exec_aesEncEcb_length data t hd (hvalid.trans hv), h, rfl⟩
    | false =>
      exact ⟨_, _, exec_aesEncEcb_sequence data s hv, exec_aesEncEcb_sequence data t (hvalid.trans hv), h, rfl⟩
  | sha1Create => exact hi.elim
  | sha1AddData => exact hi.elim
  | sha1Finalize => exact hi.elim
  | sha1Digest => exact hi.elim

/-- `SHA_PHASE` apart, the SHA-1 registers are what the shared operations read and write. -/
theorem sameContext_of_sameSha (s t : State) (h : SameSha s t) : SameContext s t := by
  obtain ⟨hh, hbuf, hlen, hmsg, -⟩ := h
  exact ⟨hh, hbuf, hlen, hmsg⟩

/-- The registers after an answer are those before it. -/
theorem sameSha_setResponse (s t : State) (r q : Response) (h : SameContext s t) (hp : t.phase = s.phase) :
    SameSha (s.setResponse r) (t.setResponse q) :=
  ⟨h.h, h.buf, h.buflen, h.msglen, hp⟩

/-- Two states with the same SHA-1 registers answer a SHA-1 command alike and have the same SHA-1 registers afterwards. -/
theorem exec_congr_sameSha (i : Instr) (s t : State) (hi : ¬ IsAes i) (h : SameSha s t) :
    ∃ s' t', exec i s = .next s' ∧ exec i t = .next t' ∧ SameSha s' t' ∧ t'.response = s'.response := by
  have hctx := sameContext_of_sameSha s t h
  have ⟨hh, _, _, _, hphase⟩ := h
  cases i with
  | aesExpand => exact absurd trivial hi
  | aesEncBlock => exact absurd trivial hi
  | aesEncEcb => exact absurd trivial hi
  | sha1Create => exact ⟨_, _, exec_sha1Create s, exec_sha1Create t, ⟨rfl, rfl, rfl, rfl, rfl⟩, rfl⟩
  | sha1AddData data =>
    by_cases hp : s.phase = .created
    · refine ⟨_, _, exec_sha1AddData_ok data s hp, exec_sha1AddData_ok data t (hphase.trans hp), ?_, rfl⟩
      have hphase' : (t.absorb data true).phase = (s.absorb data true).phase := by
        rw [(absorb_frame t data true).phase, (absorb_frame s data true).phase, hphase]
      exact sameSha_setResponse _ _ _ _ (absorb_sameContext s t data true hctx) hphase'
    · exact ⟨_, _, exec_sha1AddData_sequence data s hp, exec_sha1AddData_sequence data t (hphase ▸ hp), h, rfl⟩
  | sha1Finalize =>
    by_cases hp : s.phase = .created
    · refine ⟨_, _, exec_sha1Finalize_ok s hp, exec_sha1Finalize_ok t (hphase.trans hp), ?_, rfl⟩
      exact sameSha_setResponse _ _ _ _ (sameContext_finalize s t hctx) rfl
    · exact ⟨_, _, exec_sha1Finalize_sequence s hp, exec_sha1Finalize_sequence t (hphase ▸ hp), h, rfl⟩
  | sha1Digest =>
    by_cases hp : s.phase = .finalized
    · refine ⟨_, _, exec_sha1Digest_ok s hp, exec_sha1Digest_ok t (hphase.trans hp), h, ?_⟩
      rw [setResponse_response, setResponse_response, hh]
    · exact ⟨_, _, exec_sha1Digest_sequence s hp, exec_sha1Digest_sequence t (hphase ▸ hp), h, rfl⟩

/-! ### Either order -/

/-- Two states with the AES registers of a third have the same. -/
theorem SameAes.of_common {s t u : State} (ht : SameAes s t) (hu : SameAes s u) : SameAes t u := by
  obtain ⟨hrks, hvalid⟩ := ht
  obtain ⟨hrks', hvalid'⟩ := hu
  exact ⟨hrks'.trans hrks.symm, hvalid'.trans hvalid.symm⟩

/-- Two states with the SHA-1 registers of a third have the same. -/
theorem SameSha.of_common {s t u : State} (ht : SameSha s t) (hu : SameSha s u) : SameSha t u := by
  obtain ⟨hh, hbuf, hlen, hmsg, hphase⟩ := ht
  obtain ⟨hh', hbuf', hlen', hmsg', hphase'⟩ := hu
  exact ⟨hh'.trans hh.symm, hbuf'.trans hbuf.symm, hlen'.trans hlen.symm, hmsg'.trans hmsg.symm,
    hphase'.trans hphase.symm⟩

/-- Settles O53: each half reads and writes its own registers, so in either order each finds what it would find alone. -/
theorem aesAndShaDoNotInterfere : Obligations.AesAndShaDoNotInterfere := by
  unfold Obligations.AesAndShaDoNotInterfere
  intro i j s hi hj
  obtain ⟨si, hsi, hci⟩ := exec_cases i s
  obtain ⟨sj, hsj, hcj⟩ := exec_cases j s
  have hsha : SameSha s si := execCase_sameSha i s si hci hi
  have haes : SameAes s sj := execCase_sameAes_of_sha j s sj hcj hj
  obtain ⟨si', sji, hsi', hsji, haes', hresi⟩ := exec_congr_sameAes i s sj hi haes
  obtain ⟨sj', sij, hsj', hsij, hsha', hresj⟩ := exec_congr_sameSha j s si hj hsha
  cases hsi.symm.trans hsi'
  cases hsj.symm.trans hsj'
  have haesij : SameAes si sij := execCase_sameAes_of_sha j si sij (execCase_of_next _ _ _ hsij) hj
  have hshaji : SameSha sj sji := execCase_sameSha i sj sji (execCase_of_next _ _ _ hsji) hi
  exact ⟨si, sij, sj, sji, hsi, hsij, hsj, hsji, hsha, haes,
    ⟨haesij.of_common haes', hsha'.of_common hshaji⟩, hresi, hresj⟩

end Sys2Proof.Machine
end

section
/-! PROOFS. GaloisField (40_galois_field.md R100 to R109): `Multiply` is the product of a commutative ring of which `Xtime` is
the multiplication by 2, the log and exp tables are the powers of 3 in it, and the S-box is the affine image of its inverse. -/

namespace Sys2Proof.Machine

/-! ### Multiply as a ring product (R105) -/

@[simp] theorem multiply_zero (a : Byte) : multiply a 0 = 0 := by
  simp [multiply, multiplyFrom]

@[simp] theorem multiply_one (a : Byte) : multiply a 1 = a := by
  simp [multiply, multiplyFrom]

theorem multiply_two (a : Byte) : multiply a 2 = xtime a := by
  simp [multiply, multiplyFrom]

/-- The loop commutes with `Xtime` in the shifted operand and the sum. -/
theorem multiplyFrom_xtime (b : Byte) (n : Nat) : ∀ (i : Nat) (t r : Byte),
    multiplyFrom b n i (xtime t) (xtime r) = xtime (multiplyFrom b n i t r) := by
  induction n with
  | zero => intros; rfl
  | succ n ih =>
    intro i t r
    simp only [multiplyFrom, ← ih]
    congr 1
    split
    · exact (xtime_xor r t).symm
    · rfl

theorem multiply_xtime_left (a b : Byte) : multiply (xtime a) b = xtime (multiply a b) :=
  multiplyFrom_xtime b 8 0 a 0

@[simp] theorem zero_multiply (b : Byte) : multiply 0 b = 0 := by
  have h := multiply_xor_left 0 0 b
  rwa [BitVec.xor_self, BitVec.xor_self] at h

/-- From 1 on, the loop puts `b` together again from its bits: evaluated at every byte. -/
@[simp] theorem one_multiply : ∀ b : Byte, multiply 1 b = b := by decide

/-- What holds of the loop's shifted operand and of its sum, and is kept by `Xtime` and `XOR`, holds of its result. -/
theorem multiplyFrom_induction {P : Byte → Prop} (hxor : ∀ a b, P a → P b → P (a ^^^ b))
    (hxtime : ∀ a, P a → P (xtime a)) (b : Byte) (n : Nat) : ∀ (i : Nat) (t r : Byte), P t → P r → P (multiplyFrom b n i t r) := by
  induction n with
  | zero => exact fun _ _ _ _ hr => hr
  | succ n ih =>
    intro i t r ht hr
    refine ih _ _ _ (hxtime t ht) ?_
    split
    · exact hxor r t hr ht
    · exact hr

/-- Every byte is built from 0 and 1 by `Xtime` and `XOR`, being its own product with 1. -/
theorem byte_induction {P : Byte → Prop} (b : Byte) (zero : P 0) (one : P 1) (xor : ∀ a b, P a → P b → P (a ^^^ b))
    (xtime : ∀ a, P a → P (xtime a)) : P b :=
  one_multiply b ▸ multiplyFrom_induction xor xtime b 8 0 1 0 one zero

theorem multiply_xtime_right (a b : Byte) : multiply a (xtime b) = xtime (multiply a b) := by
  induction a using byte_induction with
  | zero => simp only [zero_multiply, xtime_zero]
  | one => simp only [one_multiply]
  | xor a a' ha ha' => simp only [multiply_xor_left, xtime_xor, ha, ha']
  | xtime a ha => simp only [multiply_xtime_left, ha]

theorem multiply_comm (a b : Byte) : multiply a b = multiply b a := by
  induction a using byte_induction with
  | zero => rw [zero_multiply, multiply_zero]
  | one => rw [one_multiply, multiply_one]
  | xor a a' ha ha' => rw [multiply_xor_left, multiply_xor_right, ha, ha']
  | xtime a ha => rw [multiply_xtime_left, multiply_xtime_right, ha]

theorem multiply_assoc (a b c : Byte) : multiply (multiply a b) c = multiply a (multiply b c) := by
  induction a using byte_induction with
  | zero => simp only [zero_multiply]
  | one => simp only [one_multiply]
  | xor a a' ha ha' => simp only [multiply_xor_left, ha, ha']
  | xtime a ha => simp only [multiply_xtime_left, ha]

/-- Settles O17: `Multiply` is linear in each operand, so that commutativity needs checking only on what generates the
bytes. -/
theorem multiplyLaws : Obligations.MultiplyLaws := by
  unfold Obligations.MultiplyLaws
  exact fun a b c => ⟨multiply_comm a b, multiply_zero a, multiply_one a, multiply_xor_right a b c⟩

/-! ### The multipliers 1, 2 and 3 (R101, R109), and the round constants (R107) -/

theorem two_multiply (v : Byte) : multiply 2 v = xtime v := by
  rw [multiply_comm, multiply_two]

/-- As polynomials, 3 is 2 + 1. -/
theorem three_multiply (v : Byte) : multiply 3 v = xtime v ^^^ v := by
  calc multiply 3 v
      = multiply (2 ^^^ 1) v := rfl
    _ = multiply 2 v ^^^ multiply 1 v := multiply_xor_left 2 1 v
    _ = xtime v ^^^ v := by rw [two_multiply, one_multiply]

/-- Settles O18: each multiplier by its closed form; `Xtime` is written with its branches in the other order. -/
theorem multiplierClosedForms : Obligations.MultiplierClosedForms := by
  unfold Obligations.MultiplierClosedForms
  refine fun v => ⟨?_, one_multiply v, two_multiply v, three_multiply v⟩
  unfold xtime
  cases v.getLsbD 7 <;> rfl

/-- Settles O19: doubling is `Xtime`, which runs along the table. -/
theorem rconIsTheDoublingChain : Obligations.RconIsTheDoublingChain := by
  unfold Obligations.RconIsTheDoublingChain
  simp only [two_multiply]
  decide

/-! ### The powers of 3 (R106) -/

/-- The power of 3 with exponent `i`, read from `EXP`: exponents count modulo 255. -/
def expOf (i : Nat) : Byte :=
  tableEntry expRows (i % 255)

theorem expOf_mod (i : Nat) : expOf (i % 255) = expOf i := by
  rw [expOf, Nat.mod_mod, expOf]

theorem tableEntry_expRows (i : Fin 255) : tableEntry expRows i = expOf i := by
  rw [expOf, Nat.mod_eq_of_lt i.isLt]

theorem expOf_zero : expOf 0 = 1 := rfl

/-- `EXP` read entry by entry: each is 3 times the one before, and the last leads back to the first. -/
theorem expOf_succ (i : Nat) : expOf (i + 1) = multiply 3 (expOf i) := by
  have table : ∀ j : Fin 255, tableEntry expRows ((j + 1) % 255) = xtime (tableEntry expRows j) ^^^ tableEntry expRows j := by
    decide +kernel
  rw [three_multiply, expOf, expOf, ← Nat.mod_add_mod]
  exact table ⟨i % 255, Nat.mod_lt i (by decide)⟩

/-- `LOG` read entry by entry. -/
theorem log_expOf (i : Fin 255) : (tableEntry logRows (expOf i).toNat).toNat = i := by
  revert i
  decide +kernel

/-- `LOG` names an exponent of every byte other than 0. -/
theorem expOf_log : ∀ a : Byte, a ≠ 0 → expOf (tableEntry logRows a.toNat).toNat = a := by
  decide

/-- Settles O20: the entries of `EXP` as powers of 3, and `LOG` back from them. -/
theorem logExpTables : Obligations.LogExpTables := by
  unfold Obligations.LogExpTables
  refine ⟨fun i => ⟨fun hi => ?_, ?_⟩, fun i => ?_⟩
  · rw [hi]
    exact expOf_zero
  · rw [tableEntry_expRows]
    exact expOf_succ i
  · rw [tableEntry_expRows]
    exact log_expOf i

/-- Exponents add where powers multiply. -/
theorem multiply_expOf (i j : Nat) : multiply (expOf i) (expOf j) = expOf (i + j) := by
  induction i with
  | zero => rw [expOf_zero, one_multiply, Nat.zero_add]
  | succ i ih => rw [expOf_succ, multiply_assoc, ih, ← expOf_succ, Nat.add_right_comm]

/-- Settles O16: the special cases are laws of `Multiply`, and in the last case both operands are powers of 3, whose
exponents add. -/
theorem multiplyByTablesAgrees : Obligations.MultiplyByTablesAgrees := by
  unfold Obligations.MultiplyByTablesAgrees
  intro a b
  unfold multiplyByTables
  split_ifs with ha hb h0
  · rw [ha, one_multiply]
  · rw [hb, multiply_one]
  · obtain rfl | rfl := h0
    · rw [zero_multiply]
    · rw [multiply_zero]
  · obtain ⟨ha0, hb0⟩ := not_or.1 h0
    calc expOf ((tableEntry logRows a.toNat).toNat + (tableEntry logRows b.toNat).toNat)
        = multiply (expOf (tableEntry logRows a.toNat).toNat) (expOf (tableEntry logRows b.toNat).toNat) :=
          (multiply_expOf _ _).symm
      _ = multiply a b := by rw [expOf_log a ha0, expOf_log b hb0]

/-! ### The inverse and the S-boxes (R102, R104) -/

/-- The squaring loop on powers of 3: the exponent grows by `i`, `2 * i`, `4 * i` and so on, `n` terms. -/
theorem gfSquares_expOf (n : Nat) : ∀ i j k : Nat, k + i = j + 2 ^ n * i → gfSquares n (expOf i) (expOf j) = expOf k := by
  induction n with
  | zero =>
    intro i j k hk
    rw [show k = j by omega, gfSquares]
  | succ n ih =>
    intro i j k hk
    rw [gfSquares, multiply_expOf, multiply_expOf]
    refine ih (i + i) (j + i) k ?_
    calc k + (i + i)
        = j + 2 ^ (n + 1) * i + i := by rw [← hk, Nat.add_assoc]
      _ = j + i + 2 ^ n * (i + i) := by ring

/-- The inverse of a power of 3, by its 254th power. -/
theorem gfInverse_expOf (i : Nat) : gfInverse (expOf i) = expOf (254 * i) := by
  rw [gfInverse, multiply_expOf, ← expOf_zero]
  exact gfSquares_expOf 7 (i + i) 0 (254 * i) (by omega)

theorem gfInverse_zero : gfInverse 0 = 0 := by decide

/-- The inverse of a byte other than 0, by its logarithm. -/
theorem gfInverse_of_ne_zero (b : Byte) (hb : b ≠ 0) :
    gfInverse b = expOf (254 * (tableEntry logRows b.toNat).toNat) := by
  rw [← gfInverse_expOf, expOf_log b hb]

/-- The two exponents add up to a multiple of 255. -/
theorem multiply_gfInverse (b : Byte) (hb : b ≠ 0) : multiply b (gfInverse b) = 1 := by
  obtain ⟨i, rfl⟩ : ∃ i, expOf i = b := ⟨_, expOf_log b hb⟩
  calc multiply (expOf i) (gfInverse (expOf i))
      = expOf (i + 254 * i) := by rw [gfInverse_expOf, multiply_expOf]
    _ = expOf ((i + 254 * i) % 255) := (expOf_mod _).symm
    _ = 1 := by rw [show (i + 254 * i) % 255 = 0 by omega, expOf_zero]

/-- The affine map of the S-box, applied to the inverse (R102). -/
def sboxAffine (i : Byte) : Byte :=
  i ^^^ i.rotateLeft 1 ^^^ i.rotateLeft 2 ^^^ i.rotateLeft 3 ^^^ i.rotateLeft 4 ^^^ 0x63

theorem sboxByFormula_eq (b : Byte) : sboxByFormula b = sboxAffine (gfInverse b) := rfl

/-- `SBOX` read entry by entry, with the inverse taken from `LOG` and `EXP`. -/
theorem sbox_of_ne_zero : ∀ b : Byte, b ≠ 0 →
    sbox b = sboxAffine (expOf (254 * (tableEntry logRows b.toNat).toNat)) := by
  decide

theorem sbox_eq_formula (b : Byte) : sbox b = sboxByFormula b := by
  rw [sboxByFormula_eq]
  by_cases hb : b = 0
  · rw [hb, gfInverse_zero]
    rfl
  · rw [gfInverse_of_ne_zero b hb]
    exact sbox_of_ne_zero b hb

/-- No entry of `SBOX` is its index or the complement of its index. -/
theorem sbox_ne : ∀ b : Byte, sbox b ≠ b ∧ sbox b ≠ ~~~b := by decide

/-- Settles O15: the formula, the inverse it uses, and the two gaps of the table. -/
theorem sboxIsItsFormula : Obligations.SboxIsItsFormula := by
  unfold Obligations.SboxIsItsFormula
  exact fun b => ⟨sbox_eq_formula b, multiply_gfInverse b, gfInverse_zero, sbox_ne b⟩

/-- The contract of the two tables, read entry by entry (R104). -/
theorem sbox_invSbox : ∀ b : Byte, sbox (invSbox b) = b := by decide

/-- The S-box reaches every byte, so no two bytes share an entry. -/
theorem sbox_injective : Function.Injective sbox :=
  Finite.injective_iff_surjective.2 fun b => ⟨invSbox b, sbox_invSbox b⟩

/-- Settles O14: the second half follows from the first, since the S-box is injective. -/
theorem sboxesAreInverse : Obligations.SboxesAreInverse := by
  unfold Obligations.SboxesAreInverse
  exact fun b => ⟨sbox_invSbox b, sbox_injective (sbox_invSbox (sbox b))⟩

end Sys2Proof.Machine
end

section
/-! PROOFS. The AES-128 key schedule (41_aes_key_schedule.md R120 to R132): its word operations, the recurrence of the
expanded words, the answer of `AES_EXPAND`, and how long a schedule lasts. -/

namespace Sys2Proof.Machine

/-! ### The word operations and the recurrence (R120 to R125) -/

/-- `KeyCore` with the constant's word written out (R122, R123). -/
theorem keyCore_eq (prev : AesWord) (i : Nat) :
    keyCore prev i = wordXor (subWord (rotWord prev)) ⟨rcon i, 0, 0, 0⟩ := rfl

/-- Settles O21: each clause is the operation's definition. -/
theorem keyWordOperations : Obligations.KeyWordOperations := by
  unfold Obligations.KeyWordOperations
  exact ⟨fun _ _ _ _ => rfl, fun _ _ _ _ => rfl, fun _ _ _ => rfl, fun w i _ _ => keyCore_eq w i⟩

/-- Settles O22: the invariant `KeyRun` of the word steps, read after the last of them. -/
theorem expandKeyRecurrence : Obligations.ExpandKeyRecurrence := by
  unfold Obligations.ExpandKeyRecurrence
  intro key
  refine ⟨byteAt_expandKey key, fun p h16 h172 h4 => ?_⟩
  rw [← keyCore_eq]
  exact wordAt_expandKey key p h16 h172 h4

/-! ### The answer of AES_EXPAND (R127, R130, R131) -/

/-- Latching a schedule and answering frees the two counters of the key expansion and no other transient register
(R38, log 2). -/
theorem sameTrButKey_latchSchedule (s : State) (k : Schedule) (r : Response) :
    SameTrButKey s ((s.latchSchedule k).setResponse r) := by
  rw [SameTrButKey, setResponse_tr, latchSchedule_tr, dropKeyRegs_tr]

/-- Settles O23: the two lengths are the two answers of `AES_EXPAND`. -/
theorem aesExpandLatchesSchedule : Obligations.AesExpandLatchesSchedule := by
  unfold Obligations.AesExpandLatchesSchedule
  intro key s
  refine ⟨fun hlen => ⟨_, exec_aesExpand_ok key s hlen, ?_⟩, exec_aesExpand_error key s⟩
  have hcase := ExecCase.aesExpand key s hlen
  rw [setResponse_rks, setResponse_rksValid, setResponse_response, latchSchedule_rks, latchSchedule_rksValid]
  exact ⟨rfl, rfl, rfl, bytesOf_length _, execCase_sameSha _ s _ hcase trivial,
    sameTrButKey_latchSchedule s _ _, execCase_hostIn _ s _ hcase⟩

/-- Settles O24: the payload of the answer is the expansion of the key, in which no register of the state stands. -/
theorem expandedScheduleShape : Obligations.ExpandedScheduleShape := by
  unfold Obligations.ExpandedScheduleShape
  intro key s u hlen
  refine ⟨_, _, _, exec_aesExpand_ok key s hlen, exec_aesExpand_ok key u hlen, setResponse_response _ _,
    setResponse_response _ _, ?length, ?key⟩
  case length => rw [bytesOf_length]
  case key => rw [take_expandKey key hlen]

/-- Settles O25: the error writes the response port alone, and no command looks at that port. -/
theorem wrongKeySizeIsUnsupported : Obligations.WrongKeySizeIsUnsupported := by
  unfold Obligations.WrongKeySizeIsUnsupported
  intro key s hlen
  have hanswer := exec_aesExpand_error key s hlen
  exact ⟨_, _, rfl, rfl, rfl, rfl, rfl, hanswer, (exec_setResponse _ s _).trans hanswer⟩

/-! ### The lifetime of a schedule (R132) -/

/-- Every command but a successful `AES_EXPAND` leaves the schedule and its valid bit (R132). -/
theorem exec_sameAes (i : Instr) (s t : State) (h : exec i s = .next t)
    (hi : ∀ key, i = .aesExpand key → key.length ≠ 16) : SameAes s t := by
  by_cases hexpand : ∃ key, i = .aesExpand key
  · obtain ⟨key, rfl⟩ := hexpand
    rw [exec_aesExpand_error key s (hi key rfl)] at h
    cases h
    exact ⟨setResponse_rks s _, setResponse_rksValid s _⟩
  · exact execCase_sameAes i s t (execCase_of_next i s t h) fun key he => hexpand ⟨key, he⟩

/-- Settles O26: the command leaves both AES registers, and an encryption reads no others. -/
theorem scheduleLifetime : Obligations.ScheduleLifetime := by
  unfold Obligations.ScheduleLifetime
  intro i s t h hi
  obtain ⟨hrks, hvalid⟩ := exec_sameAes i s t h hi
  refine ⟨hrks, hvalid, fun hs => ?_⟩
  have ht : t.rksValid = true := hvalid.trans hs
  rw [← hrks]
  exact ⟨fun block hlen => ⟨_, exec_aesEncBlock_ok block t hlen ht, setResponse_response _ _⟩,
    fun data hlen => ⟨_, exec_aesEncEcb_ok data t hlen ht, setResponse_response _ _⟩⟩

end Sys2Proof.Machine
end

section
/-! PROOFS. The cipher (42_aes_cipher.md R140 to R154): the four operations on a State, the rounds of `EncryptBlock`, and the
answers of `AES_ENC_BLOCK` and `AES_ENC_ECB`. -/

namespace Sys2Proof.Machine

/-! ### SubBytes and AddRoundKey (R140, R143) -/

theorem addRoundKey_zero (s : Block) : addRoundKey s (Vector.replicate 16 0) = s := by
  apply ext_byteAt
  intro i hi
  rw [byteAt_addRoundKey _ _ _ hi, byteAt_replicate _ _ hi]
  exact BitVec.xor_zero

theorem addRoundKey_addRoundKey (s k : Block) : addRoundKey (addRoundKey s k) k = s := by
  apply ext_byteAt
  intro i hi
  rw [byteAt_addRoundKey _ _ _ hi, byteAt_addRoundKey _ _ _ hi, BitVec.xor_assoc, BitVec.xor_self, BitVec.xor_zero]

/-- Settles O27: what each operation gives at a byte, and the two laws of `XOR` that carry over to whole States. -/
theorem bytewiseOperations : Obligations.BytewiseOperations := by
  unfold Obligations.BytewiseOperations
  exact fun s k rks r i _ hi => ⟨byteAt_subBytes s i hi, byteAt_addRoundKey s k i hi, byteAt_roundKey rks r i hi,
    addRoundKey_zero s, addRoundKey_addRoundKey s k⟩

/-! ### ShiftRows (R141) -/

/-- Two States with the same byte in every row and column are the same (R23). -/
theorem ext_rowCol (s t : Block) (h : ∀ r c, r < 4 → c < 4 → byteAt s (r + 4 * c) = byteAt t (r + 4 * c)) : s = t := by
  apply ext_byteAt
  intro i hi
  rw [← Nat.mod_add_div i 4]
  exact h (i % 4) (i / 4) (by omega) (by omega)

/-- `ShiftRows` by row and column: row `r` moves `r` columns to the left (R141). -/
theorem byteAt_shiftRows_rowCol (s : Block) (r c : Nat) (hr : r < 4) (hc : c < 4) :
    byteAt (shiftRows s) (r + 4 * c) = byteAt s (r + 4 * ((c + r) % 4)) := by
  rw [byteAt_shiftRows _ _ (by omega), show (r + 4 * c) % 4 = r by omega, show (r + 4 * c) / 4 = c by omega]

theorem byteAt_shiftRows_row_zero (s : Block) (c : Nat) (hc : c < 4) :
    byteAt (shiftRows s) (4 * c) = byteAt s (4 * c) := by
  have h := byteAt_shiftRows_rowCol s 0 c (by omega) hc
  rwa [Nat.zero_add, Nat.add_zero, Nat.mod_eq_of_lt hc, Nat.zero_add] at h

theorem shiftRows_of_equal_columns (s : Block) (h : ∀ r c, r < 4 → c < 4 → byteAt s (r + 4 * c) = byteAt s r) :
    shiftRows s = s := by
  apply ext_rowCol
  intro r c hr hc
  rw [byteAt_shiftRows_rowCol s r c hr hc, h r _ hr (Nat.mod_lt _ (by decide)), h r c hr hc]

/-- Row `r` has then moved `4 * r` columns, which is no move. -/
theorem shiftRows_four_times (s : Block) : shiftRows (shiftRows (shiftRows (shiftRows s))) = s := by
  apply ext_rowCol
  intro r c hr hc
  have hlt (n : Nat) : n % 4 < 4 := Nat.mod_lt n (by decide)
  rw [byteAt_shiftRows_rowCol _ r c hr hc, byteAt_shiftRows_rowCol _ r _ hr (hlt _),
    byteAt_shiftRows_rowCol _ r _ hr (hlt _), byteAt_shiftRows_rowCol _ r _ hr (hlt _)]
  congr 2
  omega

/-- Settles O28: everything is read off the row and the column a byte comes from. -/
theorem shiftRowsRotatesRows : Obligations.ShiftRowsRotatesRows := by
  unfold Obligations.ShiftRowsRotatesRows
  exact fun s => ⟨byteAt_shiftRows_rowCol s, byteAt_shiftRows_row_zero s, shiftRows_of_equal_columns s,
    shiftRows_four_times s⟩

/-! ### MixColumns (R142) -/

/-- `MixColumns` by column and row: column `c` of the result comes from column `c` alone. -/
theorem byteAt_mixColumns_colRow (s : Block) (c k : Nat) (hc : c < 4) (hk : k < 4) :
    byteAt (mixColumns s) (4 * c + k) = (wordBytes (mixColumn (wordAt s (4 * c)))).getD k 0 := by
  rw [byteAt_mixColumns _ _ (by omega), show (4 * c + k) / 4 = c by omega, show (4 * c + k) % 4 = k by omega]

/-- The entries of each row of the matrix add up to 1, so equal bytes are kept. -/
theorem mixColumn_of_equal_bytes (v : Byte) : mixColumn ⟨v, v, v, v⟩ = ⟨v, v, v, v⟩ := by
  have row (a b c d : Byte) (h : a ^^^ b ^^^ c ^^^ d = 1) :
      multiply a v ^^^ multiply b v ^^^ multiply c v ^^^ multiply d v = v := by
    rw [← multiply_xor_left, ← multiply_xor_left, ← multiply_xor_left, h, one_multiply]
  simp only [mixColumn, row 2 3 1 1 rfl, row 1 2 3 1 rfl, row 1 1 2 3 rfl, row 3 1 1 2 rfl]

/-- Settles O29: the four rows of `mixColumn`, and what it does to four equal bytes. -/
theorem mixColumnsMatrix : Obligations.MixColumnsMatrix := by
  unfold Obligations.MixColumnsMatrix
  intro s c hc x
  have out (k : Nat) (hk : k < 4) := byteAt_mixColumns_colRow s c k hc hk
  refine ⟨out 0 (by decide), out 1 (by decide), out 2 (by decide), out 3 (by decide), fun hx k hk => ?_⟩
  have hcol : wordAt s (4 * c) = ⟨x 0, x 0, x 0, x 0⟩ := by
    calc wordAt s (4 * c)
        = ⟨x 0, x 1, x 2, x 3⟩ := rfl
      _ = ⟨x 0, x 0, x 0, x 0⟩ := by rw [hx 1 (by decide), hx 2 (by decide), hx 3 (by decide)]
  rw [out k hk, hcol, mixColumn_of_equal_bytes]
  interval_cases k <;> rfl

/-! ### The rounds of EncryptBlock (R144, R146) -/

/-- The State after round `r` of R144; round 0 is the initial key addition, and the rounds after the ninth are last rounds. -/
def stateAfterRound (rks : Schedule) (block : Block) : Nat → Block
  | 0 => addRoundKey block (roundKey rks 0)
  | r + 1 =>
    if r < 9 then middleRound rks (stateAfterRound rks block r) (r + 1) else lastRound rks (stateAfterRound rks block r)

theorem stateAfterRound_zero (rks : Schedule) (block : Block) :
    stateAfterRound rks block 0 = addRoundKey block (roundKey rks 0) := rfl

theorem stateAfterRound_succ_of_lt (rks : Schedule) (block : Block) (r : Nat) (h : r < 9) :
    stateAfterRound rks block (r + 1) = middleRound rks (stateAfterRound rks block r) (r + 1) := if_pos h

theorem stateAfterRound_ten (rks : Schedule) (block : Block) :
    stateAfterRound rks block 10 = lastRound rks (stateAfterRound rks block 9) := rfl

/-- The fold over the round numbers 1, 2, ..., `n` is the run of the first `n` rounds. -/
theorem foldl_middleRound (rks : Schedule) (block : Block) (n : Nat) (h : n ≤ 9) :
    (List.range' 1 n).foldl (middleRound rks) (addRoundKey block (roundKey rks 0)) = stateAfterRound rks block n := by
  induction n with
  | zero => rfl
  | succ n ih =>
    rw [List.range'_1_concat, List.foldl_append, ih (by omega), stateAfterRound_succ_of_lt rks block n h, Nat.add_comm 1 n]
    rfl

theorem encryptBlock_eq_stateAfterRound (rks : Schedule) (block : Block) :
    encryptBlock rks block = stateAfterRound rks block 10 := by
  rw [stateAfterRound_ten, ← foldl_middleRound rks block 9 (le_refl 9)]
  rfl

/-- Settles O30: the round states are `stateAfterRound`, of which `encryptBlock` is the tenth. -/
theorem encryptBlockRounds : Obligations.EncryptBlockRounds := by
  unfold Obligations.EncryptBlockRounds
  intro rks block
  refine ⟨stateAfterRound rks block, roundKey rks, fun r i _ hi => byteAt_roundKey rks r i hi,
    stateAfterRound_zero rks block, fun r h1 h9 => ?_, stateAfterRound_ten rks block,
    encryptBlock_eq_stateAfterRound rks block⟩
  obtain ⟨q, rfl⟩ := Nat.exists_eq_add_of_le' h1
  exact stateAfterRound_succ_of_lt rks block q h9

/-! ### The encryption commands (R150 to R152, R154) -/

/-- What an answered encryption leaves: every persistent register, the transient registers other than the cipher's two
(R38, log 2), and the command port. -/
theorem dropCipherRegs_frame (s : State) (r : Response) :
    SamePersistent s (s.dropCipherRegs.setResponse r) ∧ SameTrButCipher s (s.dropCipherRegs.setResponse r) ∧
      (s.dropCipherRegs.setResponse r).hostIn = s.hostIn := by
  refine ⟨⟨⟨rfl, rfl⟩, rfl, rfl, rfl, rfl, rfl⟩, ?_, rfl⟩
  rw [SameTrButCipher, setResponse_tr, dropCipherRegs_tr]

/-- Settles O31: the two values of `RKS_VALID` are the two answers of `AES_ENC_BLOCK`. -/
theorem aesEncBlockEncrypts : Obligations.AesEncBlockEncrypts := by
  unfold Obligations.AesEncBlockEncrypts
  exact fun block s hlen => ⟨fun hv => ⟨_, exec_aesEncBlock_ok block s hlen hv, rfl, dropCipherRegs_frame s _⟩,
    exec_aesEncBlock_sequence block s hlen⟩

/-- The ciphertext of whole blocks is as long as the plaintext (R151). -/
theorem encryptEcb_length_of_whole (rks : Schedule) (data : List Byte) (h : data.length % 16 = 0) :
    (encryptEcb rks (data.length / 16) data).length = data.length := by
  rw [encryptEcb_length]
  exact Nat.mul_div_cancel' (Nat.dvd_of_mod_eq_zero h)

/-- Settles O32: the three answers of `AES_ENC_ECB`, and the ciphertext block by block. -/
theorem aesEncEcbEncryptsEveryBlock : Obligations.AesEncEcbEncryptsEveryBlock := by
  unfold Obligations.AesEncEcbEncryptsEveryBlock
  exact fun data s => ⟨exec_aesEncEcb_sequence data s, fun hv hlen => exec_aesEncEcb_length data s hlen hv, rfl,
    fun hv hlen => ⟨_, _, exec_aesEncEcb_ok data s hlen hv, rfl, rfl, encryptEcb_length_of_whole s.rks data hlen,
      encryptEcb_block s.rks data (data.length / 16), dropCipherRegs_frame s _⟩⟩

/-- `AES_ENC_ECB` of no blocks (R154). -/
theorem exec_aesEncEcb_nil (s : State) (hv : s.rksValid = true) :
    exec (.aesEncEcb []) s = .next (s.dropCipherRegs.setResponse { status := .ok, payload := [] }) :=
  exec_aesEncEcb_ok [] s rfl hv

/-- Settles O33: 0 is a multiple of 16, so only a missing schedule is an error. -/
theorem emptyEcbIsOk : Obligations.EmptyEcbIsOk := by
  unfold Obligations.EmptyEcbIsOk
  refine fun s => ⟨fun hv => ⟨_, exec_aesEncEcb_nil s hv, rfl, ?_⟩, exec_aesEncEcb_sequence [] s⟩
  exact (dropCipherRegs_frame s _).1

/-! ### No chaining (R153) -/

/-- Equal plaintext blocks give equal ciphertext blocks, wherever they stand. -/
theorem encryptEcb_equal_blocks (rks : Schedule) (data : List Byte) (n j k : Nat) (hj : j < n) (hk : k < n)
    (h : (data.drop (16 * j)).take 16 = (data.drop (16 * k)).take 16) :
    ((encryptEcb rks n data).drop (16 * j)).take 16 = ((encryptEcb rks n data).drop (16 * k)).take 16 := by
  rw [encryptEcb_block rks data n j hj, encryptEcb_block rks data n k hk, h]

/-- The ciphertext of two payloads of whole blocks, one behind the other, is their two ciphertexts. -/
theorem encryptEcb_append_whole (rks : Schedule) (x y : List Byte) (hx : x.length % 16 = 0) :
    encryptEcb rks ((x ++ y).length / 16) (x ++ y) =
      encryptEcb rks (x.length / 16) x ++ encryptEcb rks (y.length / 16) y := by
  rw [show (x ++ y).length / 16 = x.length / 16 + y.length / 16 by rw [List.length_append]; omega]
  exact encryptEcb_append rks x y (x.length / 16) (by omega) (y.length / 16)

/-- Settles O34: the three laws of the ciphertext, each read from the answers. -/
theorem ecbHasNoChaining : Obligations.EcbHasNoChaining := by
  unfold Obligations.EcbHasNoChaining
  intro s hv
  refine ⟨fun x hx => ?equalBlocks, fun x y hx hy => ?split, fun x hx => ?oneBlock⟩
  case equalBlocks =>
    exact ⟨_, _, exec_aesEncEcb_ok x s hx hv, encryptEcb_length_of_whole s.rks x hx, rfl,
      encryptEcb_equal_blocks s.rks x (x.length / 16)⟩
  case split =>
    have hxy : (x ++ y).length % 16 = 0 := by
      rw [List.length_append]
      omega
    refine ⟨_, _, _, _, _, exec_aesEncEcb_ok x s hx hv, rfl, exec_aesEncEcb_ok y s hy hv, rfl,
      exec_aesEncEcb_ok (x ++ y) s hxy hv, ?_⟩
    rw [setResponse_response, encryptEcb_append_whole s.rks x y hx]
  case oneBlock =>
    refine ⟨_, _, exec_aesEncEcb_ok x s (by omega) hv, exec_aesEncBlock_ok x s hx hv, ?_⟩
    rw [setResponse_response, setResponse_response, hx, encryptEcb_one s.rks x hx]

end Sys2Proof.Machine
end

section
/-! PROOFS. The SHA-1 compression (43_sha1_compressor.md R170 to R181): the rotation, the message schedule, and the eighty
rounds. -/

namespace Sys2Proof.Machine

/-! ### The rotation (R170) -/

/-- In the range R170 gives it, `RotL32` is the library's rotation. -/
theorem rotL32_eq_rotateLeft (x : Word) (n : Nat) (hn : n < 32) : rotL32 x n = x.rotateLeft n := by
  rw [BitVec.rotateLeft_def, Nat.mod_eq_of_lt hn, rotL32]

/-- Settles O35: the `n` low bits come round from the top, and the others move up. -/
theorem rotL32MovesBits : Obligations.RotL32MovesBits := by
  unfold Obligations.RotL32MovesBits
  intro x n i _ hn hi
  rw [rotL32_eq_rotateLeft x n hn, BitVec.getLsbD_rotateLeft, Nat.mod_eq_of_lt hn]
  by_cases hin : i < n
  · have hsrc : (i + 32 - n) % 32 = 32 - n + i := by omega
    rw [hsrc, decide_eq_true hin, cond_true]
  · have hsrc : (i + 32 - n) % 32 = i - n := by omega
    rw [hsrc, decide_eq_false hin, cond_false, decide_eq_true hi, Bool.true_and]

/-! ### The message schedule (R171, R172) -/

/-- Settles O36: the length, the words of the block and the words of the expansion are laws of the schedule. -/
theorem messageScheduleRecurrence : Obligations.MessageScheduleRecurrence := by
  unfold Obligations.MessageScheduleRecurrence
  exact fun block =>
    ⟨messageSchedule_length block, messageSchedule_getD_of_lt block, messageSchedule_getD block⟩

/-! ### The round function and the round constant (R173, R174) -/

/-- Settles O37: in each range, the tests against 20, 40 and 60 select the row of the table. -/
theorem roundFunctionAndConstant : Obligations.RoundFunctionAndConstant := by
  unfold Obligations.RoundFunctionAndConstant
  refine fun t b c d => ⟨fun _ => ?choose, fun _ _ => ?parity, fun _ _ => ?majority, fun _ _ => ?lastParity⟩
  case choose =>
    have h20 : t < 20 := by omega
    simp only [sha1F, sha1K, h20, if_true, and_self]
  case parity =>
    have h20 : ¬ t < 20 := by omega
    have h40 : t < 40 := by omega
    simp only [sha1F, sha1K, h20, h40, if_true, if_false, and_self]
  case majority =>
    have h20 : ¬ t < 20 := by omega
    have h40 : ¬ t < 40 := by omega
    have h60 : t < 60 := by omega
    simp only [sha1F, sha1K, h20, h40, h60, if_true, if_false, and_self]
  case lastParity =>
    have h20 : ¬ t < 20 := by omega
    have h40 : ¬ t < 40 := by omega
    have h60 : ¬ t < 60 := by omega
    simp only [sha1F, sha1K, h20, h40, h60, if_false, and_self]

/-! ### The eighty rounds (R175 to R181) -/

/-- The working variables after the first `t` rounds: the rounds with `W[0..t-1]` (R175, R178). -/
def workVarsAfter (h : Hash) (block : Buffer) (t : Nat) : WorkVars :=
  sha1Rounds 0 ((messageSchedule block).take t) (sha1Start h)

theorem workVarsAfter_zero (h : Hash) (block : Buffer) : workVarsAfter h block 0 = sha1Start h := rfl

theorem workVarsAfter_succ (h : Hash) (block : Buffer) (t : Nat) (ht : t < 80) :
    workVarsAfter h block (t + 1) = sha1Round t ((messageSchedule block).getD t 0) (workVarsAfter h block t) :=
  sha1Rounds_take_succ _ t _ (by rwa [messageSchedule_length])

/-- The schedule has 80 words, so that the rounds end after the eightieth (R181). -/
theorem sha1Compress_eq (h : Hash) (block : Buffer) : sha1Compress h block = sha1Add h (workVarsAfter h block 80) := by
  rw [sha1Compress, workVarsAfter, List.take_of_length_le (messageSchedule_length block).le]

/-- Settles O38: the working variables are `workVarsAfter`, which start from `H` and take one round at a time. -/
theorem compressRunsEightyRounds : Obligations.CompressRunsEightyRounds := by
  unfold Obligations.CompressRunsEightyRounds
  exact fun h block =>
    ⟨workVarsAfter h block, workVarsAfter_zero h block, workVarsAfter_succ h block, sha1Compress_eq h block⟩

end Sys2Proof.Machine
end

section
/-! PROOFS. The SHA-1 engine (44_sha1_engine.md R190 to R212): the answer of each command, the phases, any split of a message,
and `SHA1_HASH`. -/

namespace Sys2Proof.Machine

/-! ### The commands that read or write no data (R193, R200, R204) -/

/-- Settles O39: the answer of `SHA1_CREATE`, with the fresh context and `IV` written out. -/
theorem sha1CreateStartsContext : Obligations.Sha1CreateStartsContext := by
  unfold Obligations.Sha1CreateStartsContext
  exact exec_sha1Create

/-- Settles O42: the two ranges of the padding byte count; at 56 the upper one gives 64. -/
theorem paddingByteCountTable : Obligations.PaddingByteCountTable := by
  unfold Obligations.PaddingByteCountTable
  intro l hl
  have hcases := paddingByteCount_cases l hl
  omega

/-- A digest is five words of four bytes. -/
theorem digestBytes_length (h : Hash) : (digestBytes h).length = 20 := rfl

/-- Settles O44: the answer writes the response port alone, and no command looks at that port. -/
theorem sha1DigestReadsHash : Obligations.Sha1DigestReadsHash := by
  unfold Obligations.Sha1DigestReadsHash
  refine fun s => ⟨fun hp => ?_, exec_sha1Digest_sequence s⟩
  have hanswer := exec_sha1Digest_ok s hp
  exact ⟨_, _, rfl, digestBytes_length s.h, rfl, hanswer, (exec_setResponse _ s _).trans hanswer⟩

/-! ### SHA1_ADD_DATA (R194, R195, R201) -/

/-- Absorbing in closed form, from the bytes in the buffer on (R34 d, R194). -/
theorem absorb_absorbed_self (s : State) (data : List Byte) (counted : Bool) (hl : s.buflen.val < 64) :
    Absorbed s.h (memRead s.buf 0 s.buflen.val ++ data) (s.absorb data counted) :=
  absorb_absorbed _ _ _ _ _ (absorbed_self s hl)

theorem absorb_buflen (s : State) (data : List Byte) (counted : Bool) (hl : s.buflen.val < 64) :
    (s.absorb data counted).buflen.val = (s.buflen.val + data.length) % 64 := by
  rw [(absorb_absorbed_self s data counted hl).buflen, List.length_append, memRead_length _ _ _ (by omega)]

theorem absorb_buflen_lt (s : State) (data : List Byte) (counted : Bool) (hl : s.buflen.val < 64) :
    (s.absorb data counted).buflen.val < 64 := by
  rw [absorb_buflen s data counted hl]
  exact Nat.mod_lt _ (by decide)

/-- Once a block was compressed, `BUF` is the rest and zeros after it, whatever it was before (R195). -/
theorem absorb_buf_of_full (s : State) (data : List Byte) (counted : Bool) (hl : s.buflen.val < 64)
    (hfull : 64 ≤ s.buflen.val + data.length) :
    (s.absorb data counted).buf = paddedBuffer (leftover (memRead s.buf 0 s.buflen.val ++ data)) := by
  rw [absorb_tailZero_of_full s data counted hl hfull, (absorb_absorbed_self s data counted hl).buf, paddedBuffer]

/-- Settles O40: the frame and the counter of `Absorb`, then what it has absorbed. -/
theorem sha1AddDataAbsorbs : Obligations.Sha1AddDataAbsorbs := by
  unfold Obligations.Sha1AddDataAbsorbs
  refine fun data s => ⟨exec_sha1AddData_sequence data s, fun hp => ?_⟩
  have hframe := absorb_frame s data true
  refine ⟨_, exec_sha1AddData_ok data s hp, rfl, absorb_msglen s data true, hframe.phase.trans hp,
    ⟨hframe.rks, hframe.rksValid⟩, hframe.tr, hframe.hostIn, ?noData, fun hl => ?values⟩
  case noData =>
    rintro rfl
    rw [absorb_nil]
    rfl
  case values =>
    exact ⟨(absorb_absorbed_self s data true hl).h, absorb_buflen s data true hl, absorb_buf_of_full s data true hl,
      absorb_of_lt s data true⟩

/-! ### SHA1_FINALIZE (R202, R203) -/

/-- Settles O43: the zeros are one less than the padding byte count, of which the two ranges are the two block counts. -/
theorem sha1FinalizePads : Obligations.Sha1FinalizePads := by
  unfold Obligations.Sha1FinalizePads
  refine fun s => ⟨exec_sha1Finalize_sequence s, fun hp => ?_⟩
  obtain ⟨haes, htr, hin, -⟩ := finalizeContext_same s
  refine ⟨_, exec_sha1Finalize_ok s hp, rfl, finalizeContext_phase s, finalizeContext_msglen s, haes, htr, hin,
    fun hl => ⟨paddingByteCount s.buflen.val - 1, ?oneBlock, ?twoBlocks, ?hash, finalizeContext_buflen s hl,
      finalizeContext_buf s hl⟩⟩
  case hash =>
    rw [setResponse_h, finalizeContext_h s hl, padding]
    simp only [List.append_assoc, List.cons_append, List.nil_append]
  all_goals
    have hcount := paddingByteCount_cases s.buflen.val hl
    omega

/-! ### The phases (R205) -/

/-- Settles O45: an accepted command is answered by its effect, with its phase; the others by the error alone. -/
theorem phaseTable : Obligations.PhaseTable := by
  unfold Obligations.PhaseTable
  exact fun s => ⟨⟨_, exec_sha1Create s, rfl, rfl, rfl, rfl, rfl⟩,
    fun data hp => ⟨_, exec_sha1AddData_ok data s hp, rfl, (absorb_frame s data true).phase.trans hp⟩,
    fun data => exec_sha1AddData_sequence data s,
    fun hp => ⟨_, exec_sha1Finalize_ok s hp, rfl, finalizeContext_phase s⟩,
    exec_sha1Finalize_sequence s,
    fun hp => ⟨_, _, exec_sha1Digest_ok s hp, rfl, rfl, hp⟩,
    exec_sha1Digest_sequence s⟩

/-! ### SHA1_HASH (R208, R212) -/

/-- Finalizing a context that holds `m` and reading the digest answers the digest of the padded `m` (R208). -/
theorem execAll_finalize_digest (s : State) (m : List Byte) (hp : s.phase = .created) (hc : ContextHolds s m) :
    ∃ t, execAll [.sha1Finalize, .sha1Digest] s = .next t ∧
      t.response = some { status := .ok, payload := digestBytes (hashBlocks sha1Iv (paddedMessage m)) } ∧
      t.phase = .finalized ∧ SameAes s t := by
  have hfinal := finalizeContext_phase s
  have hdigest := exec_sha1Digest_ok (s.finalizeContext.setResponse { status := .ok, payload := [] }) hfinal
  refine ⟨_, (execAll_cons _ _ _ _ (exec_sha1Finalize_ok s hp)).trans (execAll_cons _ _ _ _ hdigest), ?_, hfinal,
    (finalizeContext_same s).1⟩
  rw [setResponse_response, setResponse_h, finalizeContext_h_of_contextHolds s m hc]

/-- `SHA1_HASH` of a message cut anywhere, from every state (R206, R208). -/
theorem execAll_sha1Hash (s : State) (parts : List (List Byte)) :
    ∃ t, execAll (.sha1Create :: parts.map Instr.sha1AddData ++ [.sha1Finalize, .sha1Digest]) s = .next t ∧
      t.response = some { status := .ok, payload := digestBytes (hashBlocks sha1Iv (paddedMessage parts.flatten)) } ∧
      t.phase = .finalized ∧ SameAes s t := by
  obtain ⟨u, hu, hpu, hcu, hsu⟩ := execAll_addData [.sha1Finalize, .sha1Digest] parts
    (s.createContext.setResponse { status := .ok, payload := [] }) [] rfl (contextHolds_createContext s)
  obtain ⟨t, ht, hresponse, hpt, hut⟩ := execAll_finalize_digest u parts.flatten hpu hcu
  refine ⟨t, ?_, hresponse, hpt, hut.1.trans hsu.1, hut.2.trans hsu.2⟩
  rw [List.cons_append, execAll_cons _ _ _ _ (exec_sha1Create s), hu, ht]

/-- Settles O46: the commands and their payloads, the padded message, and the run of them for every cut. -/
theorem sha1HashClosedForm : Obligations.Sha1HashClosedForm := by
  unfold Obligations.Sha1HashClosedForm
  refine fun s maxPayload m => ⟨rfl, sha1HashPayloads_flatten maxPayload m, sha1HashPayloads_of_le maxPayload m,
    sha1HashCommands_wellFormed maxPayload m, ⟨(119 - m.length % 64) % 64, ?padded, ?zeros⟩, paddedMessage_length m, ?run⟩
  case padded =>
    rw [paddedMessage]
    simp only [List.append_assoc, List.cons_append, List.nil_append]
  case zeros =>
    have hcount := paddingByteCount_cases (m.length % 64) (by omega)
    omega
  case run =>
    rintro parts rfl
    exact execAll_sha1Hash s parts

/-! ### Any split of a message (R206) -/

/-- Two states with the frame of a third and one context have the same persistent registers, whatever they answer. -/
theorem samePersistent_setResponse (s t u : State) (r q : Response) (ht : AppendFrame s t) (hu : AppendFrame s u)
    (hc : SameContext t u) : SamePersistent (t.setResponse r) (u.setResponse q) :=
  ⟨SameAes.of_common (s := s) ⟨ht.rks, ht.rksValid⟩ ⟨hu.rks, hu.rksValid⟩,
    sameSha_setResponse t u r q hc (hu.phase.trans ht.phase.symm)⟩

theorem SamePersistent.trans {s t u : State} (ht : SamePersistent s t) (hu : SamePersistent t u) : SamePersistent s u := by
  obtain ⟨⟨hrks, hvalid⟩, hh, hbuf, hlen, hmsg, hphase⟩ := ht
  obtain ⟨⟨hrks', hvalid'⟩, hh', hbuf', hlen', hmsg', hphase'⟩ := hu
  exact ⟨⟨hrks'.trans hrks, hvalid'.trans hvalid⟩, hh'.trans hh, hbuf'.trans hbuf, hlen'.trans hlen, hmsg'.trans hmsg,
    hphase'.trans hphase⟩

/-- Adding two parts, each its own command, leaves the persistent registers as adding both at once does (R206). -/
theorem exec_addData_append (s : State) (a b : List Byte) (hp : s.phase = .created) (hl : s.buflen.val < 64) :
    ∃ t u v, exec (.sha1AddData a) s = .next t ∧ t.phase = .created ∧ t.buflen.val < 64 ∧
      exec (.sha1AddData b) t = .next u ∧ exec (.sha1AddData (a ++ b)) s = .next v ∧ SamePersistent u v := by
  have hframe := absorb_frame s a true
  have hpa : (s.absorb a true).phase = .created := hframe.phase.trans hp
  have hsecond := (exec_setResponse _ _ { status := .ok, payload := [] }).trans (exec_sha1AddData_ok b _ hpa)
  exact ⟨_, _, _, exec_sha1AddData_ok a s hp, hpa, absorb_buflen_lt s a true hl, hsecond,
    exec_sha1AddData_ok (a ++ b) s hp, samePersistent_setResponse s _ _ _ _ (hframe.trans (absorb_frame _ b true))
      (absorb_frame s (a ++ b) true) (absorb_append s a b hl)⟩

/-- Adding any number of parts leaves the persistent registers as adding the whole does (R206). -/
theorem execAll_addData_flatten (parts : List (List Byte)) : ∀ s : State, s.phase = .created → s.buflen.val < 64 →
    ∃ t u, execAll (parts.map Instr.sha1AddData) s = .next t ∧ exec (.sha1AddData parts.flatten) s = .next u ∧
      SamePersistent t u := by
  induction parts with
  | nil =>
    intro s hp _
    refine ⟨s, _, execAll_nil s, exec_sha1AddData_ok [] s hp, ?_⟩
    rw [absorb_nil]
    exact ⟨⟨rfl, rfl⟩, rfl, rfl, rfl, rfl, rfl⟩
  | cons a parts ih =>
    intro s hp hl
    obtain ⟨t, u, v, ht, hpt, hlt, hu, hv, huv⟩ := exec_addData_append s a parts.flatten hp hl
    obtain ⟨w, u', hw, hu', hwu⟩ := ih t hpt hlt
    cases hu.symm.trans hu'
    exact ⟨w, v, (execAll_cons _ _ _ _ ht).trans hw, hv, hwu.trans huv⟩

/-- Settles O41: the digest depends on the message alone, not on its cut; the registers by adding one part at a time. -/
theorem streamingEquivalence : Obligations.StreamingEquivalence := by
  unfold Obligations.StreamingEquivalence
  refine ⟨fun s a b => ?_, fun s parts => execAll_addData_flatten parts s⟩
  obtain ⟨t, ht, hrt, -⟩ := execAll_sha1Hash s [a, b]
  obtain ⟨u, hu, hru, -⟩ := execAll_sha1Hash s [a ++ b]
  have hflatten : [a, b].flatten = [a ++ b].flatten := by simp only [List.flatten_cons, List.flatten_nil, List.append_nil]
  rw [hflatten] at hrt
  exact ⟨t, u, _, ht, hu, hrt, hru, rfl, digestBytes_length _⟩

end Sys2Proof.Machine
end

section
/-! PROOFS. Exceptions (60_exceptions.md): every frame is answered (R222 c, R228), an error changes nothing and is raised
again by the same frame (R222), and the order in which a frame's errors are reported (R227). -/

namespace Sys2Proof.Machine

/-! ### Every step goes on (R222 c, R228) -/

/-- Every frame is answered, whether it spells a command or not. -/
theorem answer_goes (f : Frame) (s : State) : Goes (answer f s) := by
  cases hd : decodeFrame f with
  | error e => exact ⟨_, answer_of_error f e s hd⟩
  | ok i =>
    obtain ⟨t, ht, -⟩ := exec_cases i s
    exact ⟨t, (answer_of_ok f i s hd).trans ht⟩

/-- Settles O10: without a frame CORE waits, and with one it answers. -/
theorem everyStepGoesOn : Obligations.EveryStepGoesOn := by
  unfold Obligations.EveryStepGoesOn
  intro s
  cases hs : splitFrame s.hostIn with
  | none => exact ⟨s, step_of_none s hs⟩
  | some p =>
    rw [step_of_some s p.1 p.2 hs]
    exact answer_goes p.1 _

/-! ### An error changes nothing (R222) -/

/-- A command answered with a status other than `OK` is answered empty and has changed the response port alone. -/
theorem execCase_of_status_ne_ok (i : Instr) (s t : State) (r : Response) (h : ExecCase i s t) (hr : t.response = some r)
    (hne : r.status ≠ .ok) : r.payload = [] ∧ t = s.setResponse r := by
  cases h with
  | error => cases hr; exact ⟨rfl, rfl⟩
  | aesExpand | aesEncBlock | aesEncEcb | sha1Create | sha1AddData | sha1Finalize | sha1Digest =>
    cases hr
    exact absurd rfl hne

/-- A frame answered with a status other than `OK` is answered empty, and its answer changes the response port alone. -/
theorem answer_of_status_ne_ok (f : Frame) (s t : State) (r : Response) (h : answer f s = .next t)
    (hr : t.response = some r) (hne : r.status ≠ .ok) : r.payload = [] ∧ t = s.setResponse r := by
  cases hd : decodeFrame f with
  | error e =>
    rw [answer_of_error f e s hd] at h
    cases h
    cases hr
    exact ⟨rfl, rfl⟩
  | ok i =>
    rw [answer_of_ok f i s hd] at h
    exact execCase_of_status_ne_ok i s t r (execCase_of_next i s t h) hr hne

/-- No answer looks at the response port (R222 c). -/
theorem answer_setResponse (f : Frame) (s : State) (r : Response) : answer f (s.setResponse r) = answer f s := by
  cases hd : decodeFrame f with
  | error e => rw [answer_of_error f e _ hd, answer_of_error f e s hd, setResponse_setResponse]
  | ok i => rw [answer_of_ok f i _ hd, answer_of_ok f i s hd, exec_setResponse]

/-- Settles O11: the error wrote the response port alone, at which no later answer looks. -/
theorem errorsChangeNothing : Obligations.ErrorsChangeNothing := by
  unfold Obligations.ErrorsChangeNothing
  intro s t f rest r hs hstep hr hne
  have hanswer : answer f { s with hostIn := rest } = .next t := (step_of_some s f rest hs).symm.trans hstep
  obtain ⟨hempty, rfl⟩ := answer_of_status_ne_ok f _ t r hanswer hr hne
  exact ⟨hempty, rfl, fun i => exec_setResponse i _ r, (answer_setResponse f _ r).trans hanswer⟩

/-! ### The order of the errors (R227) -/

/-- The payload of an `AES_ENC_BLOCK` that a frame spells is one block (R74, R78). -/
theorem length_of_decodeFrame_aesEncBlock (f : Frame) (block : List Byte) (h : decodeFrame f = .ok (.aesEncBlock block)) :
    block.length = 16 := by
  obtain ⟨-, hallows⟩ := (decodeFrame_ok_iff f _).1 h
  exact beq_iff_eq.1 hallows

/-- A command a frame spells that misses its schedule or its phase is answered `SequenceError`, whatever its length (R225,
R227). -/
theorem answer_of_missesState (f : Frame) (i : Instr) (s : State) (hd : decodeFrame f = .ok i) (hm : MissesState i s) :
    answer f s = .next (s.setResponse { status := .sequenceError, payload := [] }) := by
  rw [answer_of_ok f i s hd]
  cases i with
  | aesExpand => exact hm.elim
  | aesEncBlock block => exact exec_aesEncBlock_sequence block s (length_of_decodeFrame_aesEncBlock f block hd) hm
  | aesEncEcb data => exact exec_aesEncEcb_sequence data s hm
  | sha1Create => exact hm.elim
  | sha1AddData data => exact exec_sha1AddData_sequence data s hm
  | sha1Finalize => exact exec_sha1Finalize_sequence s hm
  | sha1Digest => exact exec_sha1Digest_sequence s hm

/-- A command a frame spells that misses nothing, and whose payload its operation takes, is answered `OK` (R227). -/
theorem answer_ok_of_ready (f : Frame) (i : Instr) (s : State) (hd : decodeFrame f = .ok i) (hm : ¬ MissesState i s)
    (hkey : ∀ key, i = .aesExpand key → key.length = 16) (hdata : ∀ data, i = .aesEncEcb data → data.length % 16 = 0) :
    ∃ t payload, answer f s = .next t ∧ t.response = some { status := .ok, payload := payload } := by
  rw [answer_of_ok f i s hd]
  cases i with
  | aesExpand key => exact ⟨_, _, exec_aesExpand_ok key s (hkey key rfl), rfl⟩
  | aesEncBlock block =>
    exact ⟨_, _, exec_aesEncBlock_ok block s (length_of_decodeFrame_aesEncBlock f block hd) (Bool.of_not_eq_false hm), rfl⟩
  | aesEncEcb data => exact ⟨_, _, exec_aesEncEcb_ok data s (hdata data rfl) (Bool.of_not_eq_false hm), rfl⟩
  | sha1Create => exact ⟨_, _, exec_sha1Create s, rfl⟩
  | sha1AddData data => exact ⟨_, _, exec_sha1AddData_ok data s (not_not.1 hm), rfl⟩
  | sha1Finalize => exact ⟨_, _, exec_sha1Finalize_ok s (not_not.1 hm), rfl⟩
  | sha1Digest => exact ⟨_, _, exec_sha1Digest_ok s (not_not.1 hm), rfl⟩

/-- Two responses to one frame in one state are the same. -/
theorem answer_response_unique {f : Frame} {s t u : State} {r q : Response} (ht : answer f s = .next t)
    (hr : t.response = some r) (hu : answer f s = .next u) (hq : u.response = some q) : r = q := by
  cases ht.symm.trans hu
  exact Option.some.inj (hr.symm.trans hq)

/-- What a command needs is not at the command port (R225). -/
theorem missesState_setHostIn (i : Instr) (s : State) (rest : List Byte) :
    MissesState i { s with hostIn := rest } ↔ MissesState i s := Iff.rfl

/-- Settles O12: the frame has one response, and for each reason of R227 the answer to the frame is known. -/
theorem errorPriority : Obligations.ErrorPriority := by
  unfold Obligations.ErrorPriority
  intro s f rest hs
  obtain ⟨t, r, hstep, -, hr, -⟩ := everyFrameGetsOneResponse s f rest hs
  have hanswer : answer f { s with hostIn := rest } = .next t := (step_of_some s f rest hs).symm.trans hstep
  have hstatus {u : State} {q : Response} (hu : answer f { s with hostIn := rest } = .next u)
      (hq : u.response = some q) : r.status = q.status :=
    congrArg Response.status (answer_response_unique hanswer hr hu hq)
  refine ⟨t, r, hstep, hr, ?illegal, fun i hd => ⟨?sequence, fun hready => ⟨?key, ?data, ?ok⟩⟩⟩
  case illegal =>
    rintro ⟨e, he⟩
    exact hstatus (answer_of_error f e _ he) rfl
  case sequence =>
    intro hm
    exact hstatus (answer_of_missesState f i _ hd ((missesState_setHostIn i s rest).2 hm)) rfl
  case key =>
    rintro key rfl hlen
    exact hstatus ((answer_of_ok f _ _ hd).trans (exec_aesExpand_error key _ hlen)) rfl
  case data =>
    rintro data rfl hlen
    have hvalid : s.rksValid = true := Bool.of_not_eq_false hready
    exact hstatus ((answer_of_ok f _ _ hd).trans (exec_aesEncEcb_length data _ hlen hvalid)) rfl
  case ok =>
    intro hkey hdata
    obtain ⟨u, payload, hu, hq⟩ :=
      answer_ok_of_ready f i _ hd ((missesState_setHostIn i s rest).not.2 hready) hkey hdata
    exact hstatus hu hq

end Sys2Proof.Machine
end

section
/-! PROOFS. Reset and what it closes (70_reset_and_hazards.md): CORE waits for its first command (R241), and what the host has
to do first is refused until it is done (R45, R240, R242). -/

namespace Sys2Proof.Machine

/-- Settles O6: without a frame nothing is fetched. -/
theorem stepWaitsWithoutFrame : Obligations.StepWaitsWithoutFrame := by
  unfold Obligations.StepWaitsWithoutFrame
  exact step_of_none

/-- Every reset, the first one and each later one, is a `State.resetWith` (R240). -/
theorem exists_resetWith_of_reset (s t : State) (h : t = State.reset ∨ t = s.resetEvent) :
    ∃ n, t = State.resetWith n := by
  obtain rfl | rfl := h
  · exact ⟨0, rfl⟩
  · exact ⟨s.freeCount, rfl⟩

/-- Without a schedule and without a context, only `AES_EXPAND` and `SHA1_CREATE` have what they need (R242). -/
theorem missesState_of_guards_closed (i : Instr) (s : State) (hv : s.rksValid = false) (hp : s.phase = .none)
    (hexpand : ∀ key, i ≠ .aesExpand key) (hcreate : i ≠ .sha1Create) : MissesState i s := by
  cases i with
  | aesExpand key => exact absurd rfl (hexpand key)
  | sha1Create => exact absurd rfl hcreate
  | aesEncBlock | aesEncEcb => exact hv
  | sha1AddData | sha1Finalize | sha1Digest => exact fun h => nomatch hp.symm.trans h

/-- A command that some frame spells and that misses its schedule or its phase is refused (R225): it is executed as the
answer to its own frame. -/
theorem exec_of_missesState (maxPayload : Nat) (i : Instr) (s : State) (hwf : i.wellFormed maxPayload = true)
    (hm : MissesState i s) : exec i s = .next (s.setResponse { status := .sequenceError, payload := [] }) := by
  obtain ⟨-, hallows⟩ := (wellFormed_iff maxPayload i).1 hwf
  have hd : decodeFrame i.frame = .ok i := (decodeFrame_ok_iff _ i).2 ⟨rfl, hallows⟩
  exact (answer_of_ok i.frame i s hd).symm.trans (answer_of_missesState i.frame i s hd hm)

/-- Settles O47: a reset closes both guards, and a command that misses its guard is refused. -/
theorem resetControlState : Obligations.ResetControlState := by
  unfold Obligations.ResetControlState
  intro s t maxPayload i ht
  obtain ⟨n, rfl⟩ := exists_resetWith_of_reset s t ht
  refine ⟨rfl, rfl, rfl, rfl, fun hwf hexpand hcreate => ?_⟩
  exact exec_of_missesState maxPayload i _ hwf (missesState_of_guards_closed i _ rfl rfl hexpand hcreate)

end Sys2Proof.Machine
end
